-- ==== Sys2Proof/Word.lean ====
section
/-! DEFINITION. The word types of the core and the two readings of a 16-bit pattern (00_scope.md R5, R6). -/

namespace Sys2Proof

/-- A 16-bit register value, address or immediate (R5, `XLEN` and the address width). -/
abbrev Word := BitVec 16

/-- One byte, the addressable unit (R5). -/
abbrev Byte := BitVec 8

/-- A 4-bit field of an instruction byte (R71). -/
abbrev Nibble := BitVec 4

/-- `u16(n)` of R6: the integer `n` reduced modulo 65,536, negative `n` included. -/
def u16 (n : Int) : Word := BitVec.ofInt 16 n

/-- `s16(v)` of R6: the pattern `v` read as a two's-complement number. -/
def s16 (v : Word) : Int := v.toInt

/-- The pattern `v` read as an unsigned number 0..65,535 (R6), as an integer. -/
def unsigned16 (v : Word) : Int := (v.toNat : Int)

end Sys2Proof
end

