-- ==== Sys2Proof/Syntax.lean ====
section
/-! DEFINITION. The instruction set as data: registers, mnemonics, layouts, opcodes (variants), the decoded
fields, and instructions (10_state.md R11; 30_encoding.md R70 to R90, R112). -/

namespace Sys2Proof

/-- The 16 registers (R11). `ac` is AC, also spelled RT (D17). -/
inductive Reg where
  | nl | ip | sp | ac | x0 | x1 | x2 | x3 | x4 | x5 | x6 | x7 | x8 | x9 | x10 | x11
  deriving DecidableEq, Repr

/-- The eleven layouts (R73 to R83). -/
inductive Layout where
  /-- NONE: [opcode] (R73) -/
  | none
  /-- REGA: [opcode][regA|pad] (R74) -/
  | regA
  /-- REGA_REGB: [opcode][regA|regB] (R75) -/
  | regARegB
  /-- REGA_REGB_REGC: [opcode][regC|pad][regA|regB] (R76) -/
  | regARegBRegC
  /-- IMMA8: [opcode][immA] (R77) -/
  | immA8
  /-- IMMA16: [opcode][immA lo][immA hi] (R78) -/
  | immA16
  /-- REGA_IMMA8: [opcode][immA][regA|pad] (R79) -/
  | regAImmA8
  /-- REGA_IMMA16: [opcode][immA lo][immA hi][regA|pad] (R80) -/
  | regAImmA16
  /-- REGA_REGB_IMMA4: [opcode][immA|pad][regA|regB] (R81) -/
  | regARegBImmA4
  /-- REGA_REGB_IMMA16: [opcode][immA lo][immA hi][regA|regB] (R82) -/
  | regARegBImmA16
  /-- IMMA16_IMMB16: [opcode][immA lo][immA hi][immB lo][immB hi] (R83) -/
  | immA16ImmB16
  deriving DecidableEq, Repr

/-- The 32 mnemonics (R112). -/
inductive Mnemonic where
  | nop | set | ldb | ldw | stb | stw | pshb | pshw | popb | popw
  | add | sub | mul | divs | divu | rems | remu | and | ior | xor
  | lsh | rshs | rshu | ceq | cne | clts | cltu | cges | cgeu | jmp
  | jmz | slp
  deriving DecidableEq, Repr

/-- The fields of a decoded instruction: up to three register fields and two 16-bit immediates, narrow ones
already widened with zeros (R84, R85). A field that the layout does not have holds NL or 0 and is not used. -/
structure Fields where
  a : Reg := .nl
  b : Reg := .nl
  c : Reg := .nl
  immA : Word := 0
  immB : Word := 0
  deriving DecidableEq, Repr

/-- The 70 opcodes, one per variant: a mnemonic with one operand shape (R9, R90). -/
inductive Opcode where
  /-- NOP -/
  | nop
  /-- SET_rr -/
  | setRR
  /-- SET_ri -/
  | setRI
  /-- LDB_rr -/
  | ldbRR
  /-- LDB_ri -/
  | ldbRI
  /-- LDW_rr -/
  | ldwRR
  /-- LDW_ri -/
  | ldwRI
  /-- STB_rr -/
  | stbRR
  /-- STB_ri -/
  | stbRI
  /-- STB_ir -/
  | stbIR
  /-- STB_ii -/
  | stbII
  /-- STW_rr -/
  | stwRR
  /-- STW_ri -/
  | stwRI
  /-- STW_ir -/
  | stwIR
  /-- STW_ii -/
  | stwII
  /-- PSHB_r -/
  | pshbR
  /-- PSHB_i -/
  | pshbI
  /-- PSHW_r -/
  | pshwR
  /-- PSHW_i -/
  | pshwI
  /-- POPB_r -/
  | popbR
  /-- POPW_r -/
  | popwR
  /-- ADD_rrr -/
  | addRRR
  /-- ADD_rri -/
  | addRRI
  /-- SUB_rrr -/
  | subRRR
  /-- SUB_rri -/
  | subRRI
  /-- SUB_rir -/
  | subRIR
  /-- MUL_rrr -/
  | mulRRR
  /-- MUL_rri -/
  | mulRRI
  /-- DIVS_rrr -/
  | divsRRR
  /-- DIVU_rrr -/
  | divuRRR
  /-- REMS_rrr -/
  | remsRRR
  /-- REMU_rrr -/
  | remuRRR
  /-- AND_rrr -/
  | andRRR
  /-- AND_rri -/
  | andRRI
  /-- IOR_rrr -/
  | iorRRR
  /-- IOR_rri -/
  | iorRRI
  /-- XOR_rrr -/
  | xorRRR
  /-- XOR_rri -/
  | xorRRI
  /-- LSH_rrr -/
  | lshRRR
  /-- LSH_rri -/
  | lshRRI
  /-- LSH_rir -/
  | lshRIR
  /-- RSHS_rrr -/
  | rshsRRR
  /-- RSHS_rri -/
  | rshsRRI
  /-- RSHS_rir -/
  | rshsRIR
  /-- RSHU_rrr -/
  | rshuRRR
  /-- RSHU_rri -/
  | rshuRRI
  /-- RSHU_rir -/
  | rshuRIR
  /-- CEQ_rrr -/
  | ceqRRR
  /-- CEQ_rri -/
  | ceqRRI
  /-- CEQ_rir -/
  | ceqRIR
  /-- CNE_rrr -/
  | cneRRR
  /-- CNE_rri -/
  | cneRRI
  /-- CNE_rir -/
  | cneRIR
  /-- CLTS_rrr -/
  | cltsRRR
  /-- CLTS_rri -/
  | cltsRRI
  /-- CLTS_rir -/
  | cltsRIR
  /-- CLTU_rrr -/
  | cltuRRR
  /-- CLTU_rri -/
  | cltuRRI
  /-- CLTU_rir -/
  | cltuRIR
  /-- CGES_rrr -/
  | cgesRRR
  /-- CGES_rri -/
  | cgesRRI
  /-- CGES_rir -/
  | cgesRIR
  /-- CGEU_rrr -/
  | cgeuRRR
  /-- CGEU_rri -/
  | cgeuRRI
  /-- CGEU_rir -/
  | cgeuRIR
  /-- JMP_r -/
  | jmpR
  /-- JMP_i -/
  | jmpI
  /-- JMZ_rr -/
  | jmzRR
  /-- JMZ_ri -/
  | jmzRI
  /-- SLP -/
  | slp
  deriving DecidableEq, Repr

/-- The instructions, one constructor per row of the opcode table (R90). Operands stand in assembly order
(R114, D7; log 7): `d` destination, `s1`, `s2`, `src` source registers, `addr` an address, `v` an immediate
value, `n` a shift amount, `cond` a condition register, `target` a jump target. An immediate is held as the
16-bit value that decoding gives (R84), whatever the width of its field (log 16). -/
inductive Instr where
  /-- NOP (R235) -/
  | nop
  /-- SET_rr (R131) -/
  | setRR (d : Reg) (src : Reg)
  /-- SET_ri (R132) -/
  | setRI (d : Reg) (v : Word)
  /-- LDB_rr (R133) -/
  | ldbRR (d : Reg) (addr : Reg)
  /-- LDB_ri (R134) -/
  | ldbRI (d : Reg) (addr : Word)
  /-- LDW_rr (R135) -/
  | ldwRR (d : Reg) (addr : Reg)
  /-- LDW_ri (R136) -/
  | ldwRI (d : Reg) (addr : Word)
  /-- STB_rr (R137) -/
  | stbRR (addr : Reg) (src : Reg)
  /-- STB_ri (R138) -/
  | stbRI (addr : Reg) (v : Word)
  /-- STB_ir (R139) -/
  | stbIR (addr : Word) (src : Reg)
  /-- STB_ii (R140) -/
  | stbII (addr : Word) (v : Word)
  /-- STW_rr (R141) -/
  | stwRR (addr : Reg) (src : Reg)
  /-- STW_ri (R142) -/
  | stwRI (addr : Reg) (v : Word)
  /-- STW_ir (R143) -/
  | stwIR (addr : Word) (src : Reg)
  /-- STW_ii (R144) -/
  | stwII (addr : Word) (v : Word)
  /-- PSHB_r (R151) -/
  | pshbR (src : Reg)
  /-- PSHB_i (R152) -/
  | pshbI (v : Word)
  /-- PSHW_r (R153) -/
  | pshwR (src : Reg)
  /-- PSHW_i (R154) -/
  | pshwI (v : Word)
  /-- POPB_r (R155) -/
  | popbR (d : Reg)
  /-- POPW_r (R156) -/
  | popwR (d : Reg)
  /-- ADD_rrr (R161) -/
  | addRRR (d : Reg) (s1 : Reg) (s2 : Reg)
  /-- ADD_rri (R162) -/
  | addRRI (d : Reg) (s1 : Reg) (v : Word)
  /-- SUB_rrr (R163) -/
  | subRRR (d : Reg) (s1 : Reg) (s2 : Reg)
  /-- SUB_rri (R164) -/
  | subRRI (d : Reg) (s1 : Reg) (v : Word)
  /-- SUB_rir (R165) -/
  | subRIR (d : Reg) (v : Word) (s2 : Reg)
  /-- MUL_rrr (R166) -/
  | mulRRR (d : Reg) (s1 : Reg) (s2 : Reg)
  /-- MUL_rri (R167) -/
  | mulRRI (d : Reg) (s1 : Reg) (v : Word)
  /-- DIVS_rrr (R168) -/
  | divsRRR (d : Reg) (s1 : Reg) (s2 : Reg)
  /-- DIVU_rrr (R169) -/
  | divuRRR (d : Reg) (s1 : Reg) (s2 : Reg)
  /-- REMS_rrr (R170) -/
  | remsRRR (d : Reg) (s1 : Reg) (s2 : Reg)
  /-- REMU_rrr (R171) -/
  | remuRRR (d : Reg) (s1 : Reg) (s2 : Reg)
  /-- AND_rrr (R181) -/
  | andRRR (d : Reg) (s1 : Reg) (s2 : Reg)
  /-- AND_rri (R182) -/
  | andRRI (d : Reg) (s1 : Reg) (v : Word)
  /-- IOR_rrr (R183) -/
  | iorRRR (d : Reg) (s1 : Reg) (s2 : Reg)
  /-- IOR_rri (R184) -/
  | iorRRI (d : Reg) (s1 : Reg) (v : Word)
  /-- XOR_rrr (R185) -/
  | xorRRR (d : Reg) (s1 : Reg) (s2 : Reg)
  /-- XOR_rri (R186) -/
  | xorRRI (d : Reg) (s1 : Reg) (v : Word)
  /-- LSH_rrr (R188) -/
  | lshRRR (d : Reg) (src : Reg) (n : Reg)
  /-- LSH_rri (R189) -/
  | lshRRI (d : Reg) (src : Reg) (n : Word)
  /-- LSH_rir (R190) -/
  | lshRIR (d : Reg) (v : Word) (n : Reg)
  /-- RSHS_rrr (R191) -/
  | rshsRRR (d : Reg) (src : Reg) (n : Reg)
  /-- RSHS_rri (R192) -/
  | rshsRRI (d : Reg) (src : Reg) (n : Word)
  /-- RSHS_rir (R193) -/
  | rshsRIR (d : Reg) (v : Word) (n : Reg)
  /-- RSHU_rrr (R194) -/
  | rshuRRR (d : Reg) (src : Reg) (n : Reg)
  /-- RSHU_rri (R195) -/
  | rshuRRI (d : Reg) (src : Reg) (n : Word)
  /-- RSHU_rir (R196) -/
  | rshuRIR (d : Reg) (v : Word) (n : Reg)
  /-- CEQ_rrr (R201) -/
  | ceqRRR (d : Reg) (s1 : Reg) (s2 : Reg)
  /-- CEQ_rri (R202) -/
  | ceqRRI (d : Reg) (s1 : Reg) (v : Word)
  /-- CEQ_rir (R203) -/
  | ceqRIR (d : Reg) (v : Word) (s2 : Reg)
  /-- CNE_rrr (R204) -/
  | cneRRR (d : Reg) (s1 : Reg) (s2 : Reg)
  /-- CNE_rri (R205) -/
  | cneRRI (d : Reg) (s1 : Reg) (v : Word)
  /-- CNE_rir (R206) -/
  | cneRIR (d : Reg) (v : Word) (s2 : Reg)
  /-- CLTS_rrr (R207) -/
  | cltsRRR (d : Reg) (s1 : Reg) (s2 : Reg)
  /-- CLTS_rri (R208) -/
  | cltsRRI (d : Reg) (s1 : Reg) (v : Word)
  /-- CLTS_rir (R209) -/
  | cltsRIR (d : Reg) (v : Word) (s2 : Reg)
  /-- CLTU_rrr (R210) -/
  | cltuRRR (d : Reg) (s1 : Reg) (s2 : Reg)
  /-- CLTU_rri (R211) -/
  | cltuRRI (d : Reg) (s1 : Reg) (v : Word)
  /-- CLTU_rir (R212) -/
  | cltuRIR (d : Reg) (v : Word) (s2 : Reg)
  /-- CGES_rrr (R213) -/
  | cgesRRR (d : Reg) (s1 : Reg) (s2 : Reg)
  /-- CGES_rri (R214) -/
  | cgesRRI (d : Reg) (s1 : Reg) (v : Word)
  /-- CGES_rir (R215) -/
  | cgesRIR (d : Reg) (v : Word) (s2 : Reg)
  /-- CGEU_rrr (R216) -/
  | cgeuRRR (d : Reg) (s1 : Reg) (s2 : Reg)
  /-- CGEU_rri (R217) -/
  | cgeuRRI (d : Reg) (s1 : Reg) (v : Word)
  /-- CGEU_rir (R218) -/
  | cgeuRIR (d : Reg) (v : Word) (s2 : Reg)
  /-- JMP_r (R231) -/
  | jmpR (target : Reg)
  /-- JMP_i (R232) -/
  | jmpI (target : Word)
  /-- JMZ_rr (R233) -/
  | jmzRR (cond : Reg) (target : Reg)
  /-- JMZ_ri (R234) -/
  | jmzRI (cond : Reg) (target : Word)
  /-- SLP (R236) -/
  | slp
  deriving DecidableEq, Repr

end Sys2Proof
end

