-- ==== Sys2Proof/Config.lean ====
section
/-! DEFINITION. The parameters of the hardware (00_scope.md R5): the fixed sizes, and one field for each
parameter that rests on a decision of the spec (92_eei_decisions.md), so that another value can be tried. The
values this model takes are `Sys2Proof.Machine.params` (Machine/Params.lean). Where the only other treatment that
the spec names for a parameter is to refuse the case (93_implementation_defined.md U3, U7, U8), that is its other
value; Machine/Admission.lean says which steps it refuses. -/

namespace Sys2Proof.Config

/-- `MEM_BYTES` (R5, R24). -/
def memBytes : Nat := 65536

/-- `NREG` (R5, R10). -/
def numRegisters : Nat := 16

/-- The longest instruction, in bytes (R5, R70). -/
def maxInstrBytes : Nat := 5

/-- `PAD_CHECK` (D6): what the decoder does with the pad nibble of a layout. -/
inductive PadCheck where
  /-- it is not looked at, the spec's choice (R72) -/
  | ignore
  /-- an instruction whose pad is not 0 is refused (U3) -/
  | refuse
  deriving DecidableEq, Repr

/-- `ADDR_WRAP` (D9): address arithmetic at the top of the address space. -/
inductive AddrWrap where
  /-- modulo 65,536 everywhere, the spec's choice (R41) -/
  | wrap
  /-- a step that leaves 0..65,535 anywhere is refused (U7) -/
  | refuse
  deriving DecidableEq, Repr

/-- `ALIAS_ORDER` (D10): an instruction one of whose register fields names a register it also uses by itself. -/
inductive AliasOrder where
  /-- all reads first, then the writes in the pseudocode's order, the spec's choice (R20) -/
  | readsFirst
  /-- the cases that show the order are refused (U8) -/
  | refuse
  deriving DecidableEq, Repr

/-- `NIBBLE_ORDER` (D4): which half of a byte the first-named 4-bit field takes. -/
inductive NibbleOrder where
  /-- bits 7:4, the spec's choice (R71) -/
  | firstHigh
  /-- bits 3:0, the other reading -/
  | firstLow
  deriving DecidableEq, Repr

/-- `BYTE_LOAD_EXT` (D11): how a loaded byte becomes 16 bits. -/
inductive ByteLoadExt where
  /-- with zeros, the spec's choice (R42) -/
  | zero
  /-- with copies of bit 7 -/
  | sign
  deriving DecidableEq, Repr

/-- `SHIFT_MODE` (D12): what a shift amount of 16 or more means (R187). -/
inductive ShiftMode where
  /-- the formulas for 0..15 go on; the spec's choice -/
  | saturate
  /-- the amount is taken modulo 16 -/
  | mod16
  deriving DecidableEq, Repr

/-- `DIVS_ROUND` (D13): how a signed quotient with a non-zero divisor is rounded. -/
inductive DivsRound where
  /-- toward zero, the spec's choice (R168) -/
  | trunc
  /-- toward minus infinity -/
  | floor
  deriving DecidableEq, Repr

/-- `SLP_TREATMENT` (D15): what a model does with opcode 0x45 (R236). -/
inductive SlpTreatment where
  /-- decline to run it -/
  | refuse
  /-- run the empty stub: nothing but the IP advance -/
  | stub
  deriving DecidableEq, Repr

/-- The parameters of R5 that rest on a decision D<n>. -/
structure Params where
  /-- `NOPCODES` (D1): an opcode byte from this number on has no variant (R92, R100). -/
  numOpcodes   : Nat
  /-- `OPC` (D2): the opcode byte of each variant, in the table's order (R90). -/
  opcodes      : List (Byte × Opcode)
  /-- `REGNUM` (D3): the number of each register (R11). -/
  registers    : List (Reg × Nibble)
  nibbleOrder  : NibbleOrder
  padCheck     : PadCheck
  addrWrap     : AddrWrap
  aliasOrder   : AliasOrder
  byteLoadExt  : ByteLoadExt
  shiftMode    : ShiftMode
  divsRound    : DivsRound
  /-- `JMZ_LINKS` (D14): whether a taken JMZ writes the link register. -/
  jmzLinks     : Bool
  slpTreatment : SlpTreatment
  /-- `IMAGE_FILL` (D16): what an image byte that nobody wrote holds. -/
  imageFill    : Byte
  /-- `HOST_WRITES` (D23): the addresses the driver may write between steps. -/
  hostWrites   : List Word
  /-- The addresses the driver reads between steps (D23, R52). -/
  hostReads    : List Word
  deriving DecidableEq, Repr

end Sys2Proof.Config
end

