-- ==== Sys2Proof/Machine/Params.lean ====
section
/-! DEFINITION. The parameter values of this model (00_scope.md R5). Each is the spec's default, but for
`slpTreatment`, where the spec admits `refuse` and `stub` and this model takes `stub` (log 1). -/

namespace Sys2Proof.Machine

/-- Rows of R90: NOP, SET, LDB, LDW, STB, STW. -/
def controlAndMovesRows : List (Byte × Opcode) :=
  [(0x00, .nop), (0x01, .setRR), (0x02, .setRI), (0x03, .ldbRR), (0x04, .ldbRI), (0x05, .ldwRR),
   (0x06, .ldwRI), (0x07, .stbRR), (0x08, .stbRI), (0x09, .stbIR), (0x0A, .stbII), (0x0B, .stwRR),
   (0x0C, .stwRI), (0x0D, .stwIR), (0x0E, .stwII)]

/-- Rows of R90: PSHB to POPW, ADD to REMU. -/
def stackAndArithmeticRows : List (Byte × Opcode) :=
  [(0x0F, .pshbR), (0x10, .pshbI), (0x11, .pshwR), (0x12, .pshwI), (0x13, .popbR), (0x14, .popwR),
   (0x15, .addRRR), (0x16, .addRRI), (0x17, .subRRR), (0x18, .subRRI), (0x19, .subRIR), (0x1A, .mulRRR),
   (0x1B, .mulRRI), (0x1C, .divsRRR), (0x1D, .divuRRR), (0x1E, .remsRRR), (0x1F, .remuRRR)]

/-- Rows of R90: AND, IOR, XOR, LSH, RSHS, RSHU. -/
def logicAndShiftsRows : List (Byte × Opcode) :=
  [(0x20, .andRRR), (0x21, .andRRI), (0x22, .iorRRR), (0x23, .iorRRI), (0x24, .xorRRR), (0x25, .xorRRI),
   (0x26, .lshRRR), (0x27, .lshRRI), (0x28, .lshRIR), (0x29, .rshsRRR), (0x2A, .rshsRRI), (0x2B, .rshsRIR),
   (0x2C, .rshuRRR), (0x2D, .rshuRRI), (0x2E, .rshuRIR)]

/-- Rows of R90: CEQ to CGEU, JMP, JMZ, SLP. -/
def comparesAndJumpsRows : List (Byte × Opcode) :=
  [(0x2F, .ceqRRR), (0x30, .ceqRRI), (0x31, .ceqRIR), (0x32, .cneRRR), (0x33, .cneRRI), (0x34, .cneRIR),
   (0x35, .cltsRRR), (0x36, .cltsRRI), (0x37, .cltsRIR), (0x38, .cltuRRR), (0x39, .cltuRRI),
   (0x3A, .cltuRIR), (0x3B, .cgesRRR), (0x3C, .cgesRRI), (0x3D, .cgesRIR), (0x3E, .cgeuRRR),
   (0x3F, .cgeuRRI), (0x40, .cgeuRIR), (0x41, .jmpR), (0x42, .jmpI), (0x43, .jmzRR), (0x44, .jmzRI),
   (0x45, .slp)]

/-- `REGNUM` (R11): NL = 0, IP = 1, SP = 2, AC = 3, X0 to X11 = 4 to 15. -/
def registerNumbers : List (Reg × Nibble) :=
  [(.nl, 0), (.ip, 1), (.sp, 2), (.ac, 3), (.x0, 4), (.x1, 5), (.x2, 6), (.x3, 7),
   (.x4, 8), (.x5, 9), (.x6, 10), (.x7, 11), (.x8, 12), (.x9, 13), (.x10, 14), (.x11, 15)]

/-- The parameters the machine is built with. UNVERIFIED: the source is silent on each, the spec decides
(92_eei_decisions.md D1 to D4, D6, D9 to D14, D16, D23; log 2, 4 to 6, 8 to 13); unsafe.
DESIGN CHOICE: `slpTreatment` (D15, log 1); unsafe. -/
def params : Config.Params where
  numOpcodes   := 70
  opcodes      := controlAndMovesRows ++ stackAndArithmeticRows ++ logicAndShiftsRows ++ comparesAndJumpsRows
  registers    := registerNumbers
  nibbleOrder  := .firstHigh
  padCheck     := .ignore
  addrWrap     := .wrap
  aliasOrder   := .readsFirst
  byteLoadExt  := .zero
  shiftMode    := .saturate
  divsRound    := .trunc
  jmzLinks     := false
  slpTreatment := .stub
  imageFill    := 0x00
  hostWrites   := [0xE000, 0xE001]
  hostReads    := [0xF000, 0xF001, 0xF002, 0xF003]

/-- The one addition of address arithmetic, modulo 65,536 (R41): the byte `k` of a fetch, the second byte of a
word, the moves of SP and the IP advance all go through it. It is the value `wrap` of `ADDR_WRAP` (D9); under
`refuse` a step that would wrap is refused before it executes (`State.admission`).
UNVERIFIED: the source is silent on the top of the address space (log 8); unsafe. -/
def addrAdd (a : Word) (k : Int) : Word := u16 (unsigned16 a + k)

end Sys2Proof.Machine
end

