-- ==== Sys2Proof/Machine/Bits.lean ====
section
/-! DEFINITION. Byte order, bit fields and widening: the helpers that the decoder and the memory operations
use (00_scope.md R6, 20_memory.md R40, 30_encoding.md R71, R84). -/

namespace Sys2Proof.Machine

/-- `v[7:0]`. -/
def lowByte (v : Word) : Byte := v.extractLsb' 0 8

/-- `v[15:8]`. -/
def highByte (v : Word) : Byte := v.extractLsb' 8 8

/-- `hi ++ lo`: the word of two bytes, the less significant one at the lower address (R40). -/
def wordOfBytes (lo hi : Byte) : Word := hi ++ lo

/-- `zext_16` of a byte (R6). -/
def zext8 (b : Byte) : Word := b.setWidth 16

/-- `sext_16` of a byte (R6); used only where `BYTE_LOAD_EXT` is `sign`. -/
def sext8 (b : Byte) : Word := b.signExtend 16

/-- `zext_16` of a 4-bit field (R84). -/
def zext4 (n : Nibble) : Word := n.setWidth 16

/-- The widening of a loaded byte under a value of `BYTE_LOAD_EXT` (R42, D11). -/
def widenByte (e : Config.ByteLoadExt) (b : Byte) : Word :=
  match e with
  | .zero => zext8 b
  | .sign => sext8 b

/-- The byte `[f|g]` of two 4-bit fields, `f` the first-named one (R71). -/
def byteOfNibbles (o : Config.NibbleOrder) (f g : Nibble) : Byte :=
  match o with
  | .firstHigh => f ++ g
  | .firstLow  => g ++ f

/-- The first-named 4-bit field of a byte `[f|g]` (R71). -/
def firstNibble (o : Config.NibbleOrder) (b : Byte) : Nibble :=
  match o with
  | .firstHigh => b.extractLsb' 4 4
  | .firstLow  => b.extractLsb' 0 4

/-- The second-named 4-bit field of a byte `[f|g]` (R71). -/
def secondNibble (o : Config.NibbleOrder) (b : Byte) : Nibble :=
  match o with
  | .firstHigh => b.extractLsb' 0 4
  | .firstLow  => b.extractLsb' 4 4

end Sys2Proof.Machine
end

