-- ==== Sys2Proof/WellFormed.lean ====
section
/-! DEFINITION. Well-formed instructions: those whose immediates fit their fields. Every register names a
legal field value (10_state.md R10, R13), so the only checks are on the narrow immediates: 8 bits for STB_ri
and PSHB_i (30_encoding.md R77, R79), 4 bits for the immediate shifts (R81). -/

namespace Sys2Proof

/-- `v` is the zero-extension of an 8-bit field (R84). -/
def fits8 (v : Word) : Bool := v.toNat < 256

/-- `v` is the zero-extension of a 4-bit field (R84). -/
def fits4 (v : Word) : Bool := v.toNat < 16

/-- The operands are legal: each immediate is a value of its field (R84, R86). -/
def Instr.wf : Instr → Bool
  | .stbRI _ v => fits8 v
  | .pshbI v => fits8 v
  | .lshRRI _ _ n => fits4 n
  | .rshsRRI _ _ n => fits4 n
  | .rshuRRI _ _ n => fits4 n
  | .nop | .setRR _ _ | .setRI _ _ | .ldbRR _ _ | .ldbRI _ _ | .ldwRR _ _ | .ldwRI _ _ | .stbRR _ _
  | .stbIR _ _ | .stbII _ _ | .stwRR _ _ | .stwRI _ _ | .stwIR _ _ | .stwII _ _ | .pshbR _ | .pshwR _
  | .pshwI _ | .popbR _ | .popwR _ | .addRRR _ _ _ | .addRRI _ _ _ | .subRRR _ _ _ | .subRRI _ _ _
  | .subRIR _ _ _ | .mulRRR _ _ _ | .mulRRI _ _ _ | .divsRRR _ _ _ | .divuRRR _ _ _ | .remsRRR _ _ _
  | .remuRRR _ _ _ | .andRRR _ _ _ | .andRRI _ _ _ | .iorRRR _ _ _ | .iorRRI _ _ _ | .xorRRR _ _ _
  | .xorRRI _ _ _ | .lshRRR _ _ _ | .lshRIR _ _ _ | .rshsRRR _ _ _ | .rshsRIR _ _ _ | .rshuRRR _ _ _
  | .rshuRIR _ _ _ | .ceqRRR _ _ _ | .ceqRRI _ _ _ | .ceqRIR _ _ _ | .cneRRR _ _ _ | .cneRRI _ _ _
  | .cneRIR _ _ _ | .cltsRRR _ _ _ | .cltsRRI _ _ _ | .cltsRIR _ _ _ | .cltuRRR _ _ _ | .cltuRRI _ _ _
  | .cltuRIR _ _ _ | .cgesRRR _ _ _ | .cgesRRI _ _ _ | .cgesRIR _ _ _ | .cgeuRRR _ _ _ | .cgeuRRI _ _ _
  | .cgeuRIR _ _ _ | .jmpR _ | .jmpI _ | .jmzRR _ _ | .jmzRI _ _ | .slp => true

end Sys2Proof
end

