-- ==== Sys2Proof/Decode.lean ====
section
/-! DEFINITION. The opcode table, the layouts, the decoder and the encoder (30_encoding.md R70 to R93, R100,
R115). The numbers `OPC` and `REGNUM` are the spec's decisions D1 to D3 (log 5): they stand in the tables
of `params` (Machine/Params.lean) and nowhere else. -/

namespace Sys2Proof

open Machine

/-- The number of a register (R11, `REGNUM`). -/
def regNum (r : Reg) : Nibble := (params.registers.lookup r).getD 0

/-- The register that a 4-bit field names; every value names one (R10, R85). -/
def regOfNum (n : Nibble) : Reg := ((params.registers.map Prod.swap).lookup n).getD .nl

/-- The opcode byte of a variant (R90, `OPC`). -/
def Opcode.code (v : Opcode) : Byte := ((params.opcodes.map Prod.swap).lookup v).getD 0

/-- The variants in the table's order (R90). -/
def opcodeTable : List Opcode := params.opcodes.map Prod.snd

/-- The variant an opcode byte selects; no other bit takes part (R91). `none` from `NOPCODES` on: 0x46 to 0xFF
(R92). -/
def opcodeOfByte (b : Byte) : Option Opcode :=
  if b.toNat < params.numOpcodes then params.opcodes.lookup b else none

/-- The layout of each variant (R90, column "layout"). -/
def Opcode.layout : Opcode → Layout
  | .nop => .none
  | .setRR => .regARegB
  | .setRI => .regAImmA16
  | .ldbRR => .regARegB
  | .ldbRI => .regAImmA16
  | .ldwRR => .regARegB
  | .ldwRI => .regAImmA16
  | .stbRR => .regARegB
  | .stbRI => .regAImmA8
  | .stbIR => .regAImmA16
  | .stbII => .immA16ImmB16
  | .stwRR => .regARegB
  | .stwRI => .regAImmA16
  | .stwIR => .regAImmA16
  | .stwII => .immA16ImmB16
  | .pshbR => .regA
  | .pshbI => .immA8
  | .pshwR => .regA
  | .pshwI => .immA16
  | .popbR => .regA
  | .popwR => .regA
  | .addRRR => .regARegBRegC
  | .addRRI => .regARegBImmA16
  | .subRRR => .regARegBRegC
  | .subRRI => .regARegBImmA16
  | .subRIR => .regARegBImmA16
  | .mulRRR => .regARegBRegC
  | .mulRRI => .regARegBImmA16
  | .divsRRR => .regARegBRegC
  | .divuRRR => .regARegBRegC
  | .remsRRR => .regARegBRegC
  | .remuRRR => .regARegBRegC
  | .andRRR => .regARegBRegC
  | .andRRI => .regARegBImmA16
  | .iorRRR => .regARegBRegC
  | .iorRRI => .regARegBImmA16
  | .xorRRR => .regARegBRegC
  | .xorRRI => .regARegBImmA16
  | .lshRRR => .regARegBRegC
  | .lshRRI => .regARegBImmA4
  | .lshRIR => .regARegBImmA16
  | .rshsRRR => .regARegBRegC
  | .rshsRRI => .regARegBImmA4
  | .rshsRIR => .regARegBImmA16
  | .rshuRRR => .regARegBRegC
  | .rshuRRI => .regARegBImmA4
  | .rshuRIR => .regARegBImmA16
  | .ceqRRR => .regARegBRegC
  | .ceqRRI => .regARegBImmA16
  | .ceqRIR => .regARegBImmA16
  | .cneRRR => .regARegBRegC
  | .cneRRI => .regARegBImmA16
  | .cneRIR => .regARegBImmA16
  | .cltsRRR => .regARegBRegC
  | .cltsRRI => .regARegBImmA16
  | .cltsRIR => .regARegBImmA16
  | .cltuRRR => .regARegBRegC
  | .cltuRRI => .regARegBImmA16
  | .cltuRIR => .regARegBImmA16
  | .cgesRRR => .regARegBRegC
  | .cgesRRI => .regARegBImmA16
  | .cgesRIR => .regARegBImmA16
  | .cgeuRRR => .regARegBRegC
  | .cgeuRRI => .regARegBImmA16
  | .cgeuRIR => .regARegBImmA16
  | .jmpR => .regA
  | .jmpI => .immA16
  | .jmzRR => .regARegB
  | .jmzRI => .regAImmA16
  | .slp => .none

/-- `numBytes` of a layout: the whole length of the instruction (R73 to R83). -/
def Layout.numBytes : Layout → Nat
  | .none => 1
  | .regA => 2
  | .regARegB => 2
  | .regARegBRegC => 3
  | .immA8 => 2
  | .immA16 => 3
  | .regAImmA8 => 3
  | .regAImmA16 => 4
  | .regARegBImmA4 => 3
  | .regARegBImmA16 => 4
  | .immA16ImmB16 => 5

/-- The register in the first-named 4-bit field of a byte (R71, R85). -/
def regHigh (b : Byte) : Reg := regOfNum (firstNibble params.nibbleOrder b)

/-- The register in the second-named 4-bit field of a byte (R71, R85). -/
def regLow (b : Byte) : Reg := regOfNum (secondNibble params.nibbleOrder b)

/-- The fields of a layout, taken from the instruction's bytes, where `b k` is byte `k` counted from the
opcode byte `b 0` (R73 to R83). A pad is not looked at (R72). -/
def Layout.unpack (l : Layout) (b : Nat → Byte) : Fields :=
  match l with
  | .none => {}
  | .regA => { a := regHigh (b 1) }
  | .regARegB => { a := regHigh (b 1), b := regLow (b 1) }
  | .regARegBRegC => { a := regHigh (b 2), b := regLow (b 2), c := regHigh (b 1) }
  | .immA8 => { immA := zext8 (b 1) }
  | .immA16 => { immA := wordOfBytes (b 1) (b 2) }
  | .regAImmA8 => { a := regHigh (b 2), immA := zext8 (b 1) }
  | .regAImmA16 => { a := regHigh (b 3), immA := wordOfBytes (b 1) (b 2) }
  | .regARegBImmA4 =>
    { a := regHigh (b 2), b := regLow (b 2), immA := zext4 (firstNibble params.nibbleOrder (b 1)) }
  | .regARegBImmA16 => { a := regHigh (b 3), b := regLow (b 3), immA := wordOfBytes (b 1) (b 2) }
  | .immA16ImmB16 => { immA := wordOfBytes (b 1) (b 2), immB := wordOfBytes (b 3) (b 4) }

/-- The pad nibble of a layout in an instruction's bytes; 0 where it has none (R72). -/
def Layout.pad (l : Layout) (b : Nat → Byte) : Nibble :=
  match l with
  | .regA => secondNibble params.nibbleOrder (b 1)
  | .regARegBRegC => secondNibble params.nibbleOrder (b 1)
  | .regAImmA8 => secondNibble params.nibbleOrder (b 2)
  | .regAImmA16 => secondNibble params.nibbleOrder (b 3)
  | .regARegBImmA4 => secondNibble params.nibbleOrder (b 1)
  | .none | .regARegB | .immA8 | .immA16 | .regARegBImmA16 | .immA16ImmB16 => 0

/-- The instruction of a variant with the given fields: which field plays which role (R85, R90 column
"form", D7). -/
def Opcode.build (v : Opcode) (f : Fields) : Instr :=
  match v with
  | .nop => .nop
  | .setRR => .setRR f.a f.b
  | .setRI => .setRI f.a f.immA
  | .ldbRR => .ldbRR f.a f.b
  | .ldbRI => .ldbRI f.a f.immA
  | .ldwRR => .ldwRR f.a f.b
  | .ldwRI => .ldwRI f.a f.immA
  | .stbRR => .stbRR f.a f.b
  | .stbRI => .stbRI f.a f.immA
  | .stbIR => .stbIR f.immA f.a
  | .stbII => .stbII f.immA f.immB
  | .stwRR => .stwRR f.a f.b
  | .stwRI => .stwRI f.a f.immA
  | .stwIR => .stwIR f.immA f.a
  | .stwII => .stwII f.immA f.immB
  | .pshbR => .pshbR f.a
  | .pshbI => .pshbI f.immA
  | .pshwR => .pshwR f.a
  | .pshwI => .pshwI f.immA
  | .popbR => .popbR f.a
  | .popwR => .popwR f.a
  | .addRRR => .addRRR f.a f.b f.c
  | .addRRI => .addRRI f.a f.b f.immA
  | .subRRR => .subRRR f.a f.b f.c
  | .subRRI => .subRRI f.a f.b f.immA
  | .subRIR => .subRIR f.a f.immA f.b
  | .mulRRR => .mulRRR f.a f.b f.c
  | .mulRRI => .mulRRI f.a f.b f.immA
  | .divsRRR => .divsRRR f.a f.b f.c
  | .divuRRR => .divuRRR f.a f.b f.c
  | .remsRRR => .remsRRR f.a f.b f.c
  | .remuRRR => .remuRRR f.a f.b f.c
  | .andRRR => .andRRR f.a f.b f.c
  | .andRRI => .andRRI f.a f.b f.immA
  | .iorRRR => .iorRRR f.a f.b f.c
  | .iorRRI => .iorRRI f.a f.b f.immA
  | .xorRRR => .xorRRR f.a f.b f.c
  | .xorRRI => .xorRRI f.a f.b f.immA
  | .lshRRR => .lshRRR f.a f.b f.c
  | .lshRRI => .lshRRI f.a f.b f.immA
  | .lshRIR => .lshRIR f.a f.immA f.b
  | .rshsRRR => .rshsRRR f.a f.b f.c
  | .rshsRRI => .rshsRRI f.a f.b f.immA
  | .rshsRIR => .rshsRIR f.a f.immA f.b
  | .rshuRRR => .rshuRRR f.a f.b f.c
  | .rshuRRI => .rshuRRI f.a f.b f.immA
  | .rshuRIR => .rshuRIR f.a f.immA f.b
  | .ceqRRR => .ceqRRR f.a f.b f.c
  | .ceqRRI => .ceqRRI f.a f.b f.immA
  | .ceqRIR => .ceqRIR f.a f.immA f.b
  | .cneRRR => .cneRRR f.a f.b f.c
  | .cneRRI => .cneRRI f.a f.b f.immA
  | .cneRIR => .cneRIR f.a f.immA f.b
  | .cltsRRR => .cltsRRR f.a f.b f.c
  | .cltsRRI => .cltsRRI f.a f.b f.immA
  | .cltsRIR => .cltsRIR f.a f.immA f.b
  | .cltuRRR => .cltuRRR f.a f.b f.c
  | .cltuRRI => .cltuRRI f.a f.b f.immA
  | .cltuRIR => .cltuRIR f.a f.immA f.b
  | .cgesRRR => .cgesRRR f.a f.b f.c
  | .cgesRRI => .cgesRRI f.a f.b f.immA
  | .cgesRIR => .cgesRIR f.a f.immA f.b
  | .cgeuRRR => .cgeuRRR f.a f.b f.c
  | .cgeuRRI => .cgeuRRI f.a f.b f.immA
  | .cgeuRIR => .cgeuRIR f.a f.immA f.b
  | .jmpR => .jmpR f.a
  | .jmpI => .jmpI f.immA
  | .jmzRR => .jmzRR f.a f.b
  | .jmzRI => .jmzRI f.a f.immA
  | .slp => .slp

/-- The instruction whose bytes are `b 0`, `b 1`, … (R100): total on all bytes; an opcode byte with no row in
the table decodes as NOP (R92). -/
def decodeAt (b : Nat → Byte) : Instr :=
  match opcodeOfByte (b 0) with
  | some v => v.build (v.layout.unpack b)
  | none => .nop

/-- The length that an opcode byte decides, alone; 1 where it has no row (R70, R92). -/
def lengthOfByte (b : Byte) : Nat :=
  match opcodeOfByte b with
  | some v => v.layout.numBytes
  | none => 1

/-- Why a list of bytes is no instruction. The machine never meets these: memory has no end (R41, R46). -/
inductive DecodeError where
  /-- There is no opcode byte. -/
  | noOpcode
  /-- The list ends before the length that its opcode byte decides. -/
  | truncated (needed available : Nat)
  deriving DecidableEq, Repr

/-- The first instruction of a list of bytes, and the bytes after it (R70, R71, R92). -/
def decode : List Byte → Except DecodeError (Instr × List Byte)
  | [] => .error .noOpcode
  | op :: rest =>
    if lengthOfByte op ≤ rest.length + 1 then
      .ok (decodeAt (fun k => (op :: rest).getD k 0), (op :: rest).drop (lengthOfByte op))
    else
      .error (.truncated (lengthOfByte op) (rest.length + 1))

/-- The variant of an instruction (R90). -/
def Instr.opcode : Instr → Opcode
  | .nop => .nop
  | .setRR _ _ => .setRR
  | .setRI _ _ => .setRI
  | .ldbRR _ _ => .ldbRR
  | .ldbRI _ _ => .ldbRI
  | .ldwRR _ _ => .ldwRR
  | .ldwRI _ _ => .ldwRI
  | .stbRR _ _ => .stbRR
  | .stbRI _ _ => .stbRI
  | .stbIR _ _ => .stbIR
  | .stbII _ _ => .stbII
  | .stwRR _ _ => .stwRR
  | .stwRI _ _ => .stwRI
  | .stwIR _ _ => .stwIR
  | .stwII _ _ => .stwII
  | .pshbR _ => .pshbR
  | .pshbI _ => .pshbI
  | .pshwR _ => .pshwR
  | .pshwI _ => .pshwI
  | .popbR _ => .popbR
  | .popwR _ => .popwR
  | .addRRR _ _ _ => .addRRR
  | .addRRI _ _ _ => .addRRI
  | .subRRR _ _ _ => .subRRR
  | .subRRI _ _ _ => .subRRI
  | .subRIR _ _ _ => .subRIR
  | .mulRRR _ _ _ => .mulRRR
  | .mulRRI _ _ _ => .mulRRI
  | .divsRRR _ _ _ => .divsRRR
  | .divuRRR _ _ _ => .divuRRR
  | .remsRRR _ _ _ => .remsRRR
  | .remuRRR _ _ _ => .remuRRR
  | .andRRR _ _ _ => .andRRR
  | .andRRI _ _ _ => .andRRI
  | .iorRRR _ _ _ => .iorRRR
  | .iorRRI _ _ _ => .iorRRI
  | .xorRRR _ _ _ => .xorRRR
  | .xorRRI _ _ _ => .xorRRI
  | .lshRRR _ _ _ => .lshRRR
  | .lshRRI _ _ _ => .lshRRI
  | .lshRIR _ _ _ => .lshRIR
  | .rshsRRR _ _ _ => .rshsRRR
  | .rshsRRI _ _ _ => .rshsRRI
  | .rshsRIR _ _ _ => .rshsRIR
  | .rshuRRR _ _ _ => .rshuRRR
  | .rshuRRI _ _ _ => .rshuRRI
  | .rshuRIR _ _ _ => .rshuRIR
  | .ceqRRR _ _ _ => .ceqRRR
  | .ceqRRI _ _ _ => .ceqRRI
  | .ceqRIR _ _ _ => .ceqRIR
  | .cneRRR _ _ _ => .cneRRR
  | .cneRRI _ _ _ => .cneRRI
  | .cneRIR _ _ _ => .cneRIR
  | .cltsRRR _ _ _ => .cltsRRR
  | .cltsRRI _ _ _ => .cltsRRI
  | .cltsRIR _ _ _ => .cltsRIR
  | .cltuRRR _ _ _ => .cltuRRR
  | .cltuRRI _ _ _ => .cltuRRI
  | .cltuRIR _ _ _ => .cltuRIR
  | .cgesRRR _ _ _ => .cgesRRR
  | .cgesRRI _ _ _ => .cgesRRI
  | .cgesRIR _ _ _ => .cgesRIR
  | .cgeuRRR _ _ _ => .cgeuRRR
  | .cgeuRRI _ _ _ => .cgeuRRI
  | .cgeuRIR _ _ _ => .cgeuRIR
  | .jmpR _ => .jmpR
  | .jmpI _ => .jmpI
  | .jmzRR _ _ => .jmzRR
  | .jmzRI _ _ => .jmzRI
  | .slp => .slp

/-- The fields of an instruction (R85, R90 column "form"). -/
def Instr.fields : Instr → Fields
  | .nop => {}
  | .setRR d src => { a := d, b := src }
  | .setRI d v => { a := d, immA := v }
  | .ldbRR d addr => { a := d, b := addr }
  | .ldbRI d addr => { a := d, immA := addr }
  | .ldwRR d addr => { a := d, b := addr }
  | .ldwRI d addr => { a := d, immA := addr }
  | .stbRR addr src => { a := addr, b := src }
  | .stbRI addr v => { a := addr, immA := v }
  | .stbIR addr src => { a := src, immA := addr }
  | .stbII addr v => { immA := addr, immB := v }
  | .stwRR addr src => { a := addr, b := src }
  | .stwRI addr v => { a := addr, immA := v }
  | .stwIR addr src => { a := src, immA := addr }
  | .stwII addr v => { immA := addr, immB := v }
  | .pshbR src => { a := src }
  | .pshbI v => { immA := v }
  | .pshwR src => { a := src }
  | .pshwI v => { immA := v }
  | .popbR d => { a := d }
  | .popwR d => { a := d }
  | .addRRR d s1 s2 => { a := d, b := s1, c := s2 }
  | .addRRI d s1 v => { a := d, b := s1, immA := v }
  | .subRRR d s1 s2 => { a := d, b := s1, c := s2 }
  | .subRRI d s1 v => { a := d, b := s1, immA := v }
  | .subRIR d v s2 => { a := d, b := s2, immA := v }
  | .mulRRR d s1 s2 => { a := d, b := s1, c := s2 }
  | .mulRRI d s1 v => { a := d, b := s1, immA := v }
  | .divsRRR d s1 s2 => { a := d, b := s1, c := s2 }
  | .divuRRR d s1 s2 => { a := d, b := s1, c := s2 }
  | .remsRRR d s1 s2 => { a := d, b := s1, c := s2 }
  | .remuRRR d s1 s2 => { a := d, b := s1, c := s2 }
  | .andRRR d s1 s2 => { a := d, b := s1, c := s2 }
  | .andRRI d s1 v => { a := d, b := s1, immA := v }
  | .iorRRR d s1 s2 => { a := d, b := s1, c := s2 }
  | .iorRRI d s1 v => { a := d, b := s1, immA := v }
  | .xorRRR d s1 s2 => { a := d, b := s1, c := s2 }
  | .xorRRI d s1 v => { a := d, b := s1, immA := v }
  | .lshRRR d src n => { a := d, b := src, c := n }
  | .lshRRI d src n => { a := d, b := src, immA := n }
  | .lshRIR d v n => { a := d, b := n, immA := v }
  | .rshsRRR d src n => { a := d, b := src, c := n }
  | .rshsRRI d src n => { a := d, b := src, immA := n }
  | .rshsRIR d v n => { a := d, b := n, immA := v }
  | .rshuRRR d src n => { a := d, b := src, c := n }
  | .rshuRRI d src n => { a := d, b := src, immA := n }
  | .rshuRIR d v n => { a := d, b := n, immA := v }
  | .ceqRRR d s1 s2 => { a := d, b := s1, c := s2 }
  | .ceqRRI d s1 v => { a := d, b := s1, immA := v }
  | .ceqRIR d v s2 => { a := d, b := s2, immA := v }
  | .cneRRR d s1 s2 => { a := d, b := s1, c := s2 }
  | .cneRRI d s1 v => { a := d, b := s1, immA := v }
  | .cneRIR d v s2 => { a := d, b := s2, immA := v }
  | .cltsRRR d s1 s2 => { a := d, b := s1, c := s2 }
  | .cltsRRI d s1 v => { a := d, b := s1, immA := v }
  | .cltsRIR d v s2 => { a := d, b := s2, immA := v }
  | .cltuRRR d s1 s2 => { a := d, b := s1, c := s2 }
  | .cltuRRI d s1 v => { a := d, b := s1, immA := v }
  | .cltuRIR d v s2 => { a := d, b := s2, immA := v }
  | .cgesRRR d s1 s2 => { a := d, b := s1, c := s2 }
  | .cgesRRI d s1 v => { a := d, b := s1, immA := v }
  | .cgesRIR d v s2 => { a := d, b := s2, immA := v }
  | .cgeuRRR d s1 s2 => { a := d, b := s1, c := s2 }
  | .cgeuRRI d s1 v => { a := d, b := s1, immA := v }
  | .cgeuRIR d v s2 => { a := d, b := s2, immA := v }
  | .jmpR target => { a := target }
  | .jmpI target => { immA := target }
  | .jmzRR cond target => { a := cond, b := target }
  | .jmzRI cond target => { a := cond, immA := target }
  | .slp => {}

/-- The length of an instruction in bytes (R70). -/
def Instr.length (i : Instr) : Nat := i.opcode.layout.numBytes

/-- The byte `[first|second]` of two registers. -/
def regByte (first second : Reg) : Byte := byteOfNibbles params.nibbleOrder (regNum first) (regNum second)

/-- The byte `[first|pad]`: a register and a pad of 0 (R72). -/
def regPadByte (first : Reg) : Byte := byteOfNibbles params.nibbleOrder (regNum first) 0

/-- The bytes of a layout after the opcode byte (R73 to R83, R115): immediates lead, low byte first,
registers trail, pads are 0. A narrow field takes the low bits of its immediate. -/
def Layout.pack (l : Layout) (f : Fields) : List Byte :=
  match l with
  | .none => []
  | .regA => [regPadByte f.a]
  | .regARegB => [regByte f.a f.b]
  | .regARegBRegC => [regPadByte f.c, regByte f.a f.b]
  | .immA8 => [lowByte f.immA]
  | .immA16 => [lowByte f.immA, highByte f.immA]
  | .regAImmA8 => [lowByte f.immA, regPadByte f.a]
  | .regAImmA16 => [lowByte f.immA, highByte f.immA, regPadByte f.a]
  | .regARegBImmA4 => [byteOfNibbles params.nibbleOrder (f.immA.setWidth 4) 0, regByte f.a f.b]
  | .regARegBImmA16 => [lowByte f.immA, highByte f.immA, regByte f.a f.b]
  | .immA16ImmB16 => [lowByte f.immA, highByte f.immA, lowByte f.immB, highByte f.immB]

/-- The bytes of an instruction, in address order (R86, R115). -/
def encode (i : Instr) : List Byte := i.opcode.code :: i.opcode.layout.pack i.fields

/-- Byte `k` of a number whose byte 0 is its least significant one. -/
def byteOfNat (w k : Nat) : Byte := BitVec.ofNat 8 (w / 2 ^ (8 * k))

/-- The five bytes, in address order, of an instruction given as the number `w` of `nbits` bits, as
spec/opcode_table.json numbers bits: byte 0 is bits 7..0; every bit above `nbits` is 0. -/
def bytesOfTableWord (nbits w : Nat) : List Byte :=
  [byteOfNat (w % 2 ^ nbits) 0, byteOfNat (w % 2 ^ nbits) 1, byteOfNat (w % 2 ^ nbits) 2,
   byteOfNat (w % 2 ^ nbits) 3, byteOfNat (w % 2 ^ nbits) 4]

/-- The instruction the decoder reads from an instruction whose bits are `w`, numbered as
spec/opcode_table.json numbers them. -/
def decodeTableWord (nbits w : Nat) : Option Instr :=
  match decode (bytesOfTableWord nbits w) with
  | .ok (i, _) => some i
  | .error _ => none

end Sys2Proof
end

