-- ==== Sys2Proof/Machine/State.lean ====
section
/-! DEFINITION. The whole state of one core: a register file and a memory, nothing else (10_state.md R16,
R25; INVENTORY.md, "State"). Plain data. -/

namespace Sys2Proof.Machine

/-- The register file (R10, R11). NL, register 0, has no storage (R12) and so no field. -/
structure RegFile where
  /-- IP, register 1: the address of the next instruction to fetch (R14) -/
  ip  : Word
  /-- SP, register 2: the stack pointer (R17) -/
  sp  : Word
  /-- AC (RT), register 3: the link register (R18) -/
  ac  : Word
  /-- X0 to X11, registers 4 to 15: general purpose (R19) -/
  x0  : Word
  x1  : Word
  x2  : Word
  x3  : Word
  x4  : Word
  x5  : Word
  x6  : Word
  x7  : Word
  x8  : Word
  x9  : Word
  x10 : Word
  x11 : Word
  deriving DecidableEq, Repr

/-- Memory: the bytes that differ from what an unlisted address reads as (`Memory.fill`), by address, in one
canonical form (`Memory.wf`). It stands for all 65,536 bytes (R24). -/
abbrev Memory := List Host.Cell

/-- The state of one core: the source's `ProcessState` (R16, R25). -/
structure State where
  regs : RegFile
  mem  : Memory
  deriving DecidableEq, Repr

/-- The core raises no exception and never stops by itself (60_exceptions.md R240; 93_implementation_defined.md:
"Nothing in this hardware is `fault` or `stuck`"): there is no fault, so no constructor. -/
inductive Fault where
  deriving DecidableEq, Repr

/-- Why a step gives no next state. -/
inductive Refusal where
  /-- Raised by `exec` for an instruction that has no meaning yet; no arm raises it. Safe: the run ends. -/
  | notModelled (mnemonic : String)
  /-- Raised by SLP where `params.slpTreatment` is `refuse` (45_control.md R236, D15); it is `stub` in this
  model (log 1), so no step raises it. Safe: the run ends. -/
  | slpUnspecified
  /-- Raised by the step for an instruction whose pad is not 0, where `params.padCheck` is `refuse` (R72, U3); it is
  `ignore` in this model, so no step raises it. Safe: the run ends. -/
  | padNotZero
  /-- Raised by the step where an address, SP or IP leaves 0..65,535 and `params.addrWrap` is `refuse` (R41, U7); it
  is `wrap` in this model, so no step raises it. Safe: the run ends. -/
  | addressWraps
  /-- Raised by the step for an instruction that shows the order of reads and writes, where `params.aliasOrder` is
  `refuse` (R20, U8); it is `readsFirst` in this model, so no step raises it. Safe: the run ends. -/
  | aliasedOperand
  deriving DecidableEq, Repr

/-- What a step answers. -/
abbrev Result := Host.Outcome State Fault Refusal

/-- All registers zero (R25, R261). -/
def RegFile.zero : RegFile where
  ip := 0
  sp := 0
  ac := 0
  x0 := 0
  x1 := 0
  x2 := 0
  x3 := 0
  x4 := 0
  x5 := 0
  x6 := 0
  x7 := 0
  x8 := 0
  x9 := 0
  x10 := 0
  x11 := 0

/-- The machine right after reset (10_state.md R25; 70_reset_and_hazards.md R260, R261): every register 0x0000,
so the first fetch is at address 0. The memory is the image the driver supplies: here the image in which no
byte was written, every byte `Memory.fill`. DESIGN CHOICE: the spec makes the image an input of reset, and
`Driver.load` takes one (log 2, log 3); unsafe. -/
def State.reset : State where
  regs := .zero
  mem := []

end Sys2Proof.Machine
end

