-- ==== Sys2Proof/Machine/Ops.lean ====
section
/-! DEFINITION. The named operations over registers and memory: all that a meaning may do to a state.
Registers: 00_scope.md R7, 10_state.md R12, R13. Memory: 20_memory.md R41 to R46. The hardware has no
exception to take and none to return from (60_exceptions.md R240, R244, R245), so there is no such operation. -/

namespace Sys2Proof.Machine

/-! ### The register file -/

/-- `x[i]`: NL reads 0, every other register its stored value (R7, R12). -/
def RegFile.read (f : RegFile) : Reg → Word
  | .nl => 0
  | .ip => f.ip
  | .sp => f.sp
  | .ac => f.ac
  | .x0 => f.x0
  | .x1 => f.x1
  | .x2 => f.x2
  | .x3 => f.x3
  | .x4 => f.x4
  | .x5 => f.x5
  | .x6 => f.x6
  | .x7 => f.x7
  | .x8 => f.x8
  | .x9 => f.x9
  | .x10 => f.x10
  | .x11 => f.x11

/-- `x[i] <- v`: a write to NL is discarded (R7, R12). -/
def RegFile.write (f : RegFile) (r : Reg) (v : Word) : RegFile :=
  match r with
  | .nl => f
  | .ip => { f with ip := v }
  | .sp => { f with sp := v }
  | .ac => { f with ac := v }
  | .x0 => { f with x0 := v }
  | .x1 => { f with x1 := v }
  | .x2 => { f with x2 := v }
  | .x3 => { f with x3 := v }
  | .x4 => { f with x4 := v }
  | .x5 => { f with x5 := v }
  | .x6 => { f with x6 := v }
  | .x7 => { f with x7 := v }
  | .x8 => { f with x8 := v }
  | .x9 => { f with x9 := v }
  | .x10 => { f with x10 := v }
  | .x11 => { f with x11 := v }

/-- `x[r]` of a state. -/
def State.readReg (s : State) (r : Reg) : Word := s.regs.read r

/-- `x[r] <- v` on a state. -/
def State.writeReg (s : State) (r : Reg) (v : Word) : State := { s with regs := s.regs.write r v }

/-! ### Memory -/

/-- What an address that the memory does not list reads as: `IMAGE_FILL` (20_memory.md R51,
70_reset_and_hazards.md R261). -/
def Memory.fill : Byte := params.imageFill

/-- The canonical form: addresses strictly rising and below 65,536, no listed byte equal to the fill. -/
abbrev Memory.wf (m : Memory) : Prop :=
  m.Pairwise (fun c d => c.1 < d.1) ∧ ∀ c ∈ m, c.1 < Config.memBytes ∧ c.2 ≠ Memory.fill

/-- The byte at address `k`. -/
def Memory.byteAt : Memory → Nat → Byte
  | [], _ => Memory.fill
  | (a, b) :: m, k => if a = k then b else Memory.byteAt m k

/-- Insert a cell before the first one with a higher address. -/
def Memory.insertCell (c : Host.Cell) : Memory → Memory
  | [] => [c]
  | d :: m => if c.1 < d.1 then c :: d :: m else d :: Memory.insertCell c m

/-- Set the byte at address `k`; writing the fill removes the entry. -/
def Memory.setByte (m : Memory) (k : Nat) (v : Byte) : Memory :=
  if v = Memory.fill then m.filter (fun c => c.1 ≠ k)
  else Memory.insertCell (k, v) (m.filter (fun c => c.1 ≠ k))

/-- Set the bytes at `k`, `k + 1`, … -/
def Memory.setBytes (m : Memory) (k : Nat) : List Byte → Memory
  | [] => m
  | v :: vs => Memory.setBytes (m.setByte k v) (k + 1) vs

/-- `Mem[a]` (R7). -/
def State.readByte (s : State) (a : Word) : Byte := s.mem.byteAt a.toNat

/-- `Mem[a] <- v`. -/
def State.writeByte (s : State) (a : Word) (v : Byte) : State := { s with mem := s.mem.setByte a.toNat v }

/-- `MemRead(a, 1)`: one byte, widened to 16 bits (R42). -/
def State.memRead1 (s : State) (a : Word) : Word := widenByte params.byteLoadExt (s.readByte a)

/-- `MemRead(a, 2)`: the byte at `a` is the low one, the byte at `(a + 1) mod 65536` the high one (R43). -/
def State.memRead2 (s : State) (a : Word) : Word :=
  wordOfBytes (s.readByte a) (s.readByte (addrAdd a 1))

/-- `MemWrite(a, 1, v)`: stores `v[7:0]`; `v[15:8]` is dropped (R44). -/
def State.memWrite1 (s : State) (a v : Word) : State := s.writeByte a (lowByte v)

/-- `MemWrite(a, 2, v)`: `v[7:0]` at `a`, `v[15:8]` at `(a + 1) mod 65536` (R45). -/
def State.memWrite2 (s : State) (a v : Word) : State :=
  (s.writeByte a (lowByte v)).writeByte (addrAdd a 1) (highByte v)

/-! ### The stack (41_stack.md R150, 10_state.md R17) -/

/-- PSHB's effect on a value already read: SP moves down by 1, then the low byte is written there. -/
def State.push1 (s : State) (v : Word) : State :=
  (s.writeReg .sp (addrAdd (s.readReg .sp) (-1))).memWrite1 (addrAdd (s.readReg .sp) (-1)) v

/-- PSHW's effect on a value already read: SP moves down by 2, then the word is written there. -/
def State.push2 (s : State) (v : Word) : State :=
  (s.writeReg .sp (addrAdd (s.readReg .sp) (-2))).memWrite2 (addrAdd (s.readReg .sp) (-2)) v

/-- POPB's effect: the byte at SP is read, SP moves up by 1, and the destination is written last. -/
def State.pop1 (s : State) (d : Reg) : State :=
  (s.writeReg .sp (addrAdd (s.readReg .sp) 1)).writeReg d (s.memRead1 (s.readReg .sp))

/-- POPW's effect: the word at SP is read, SP moves up by 2, and the destination is written last. -/
def State.pop2 (s : State) (d : Reg) : State :=
  (s.writeReg .sp (addrAdd (s.readReg .sp) 2)).writeReg d (s.memRead2 (s.readReg .sp))

/-! ### Control transfer (45_control.md R230) -/

/-- JMP's effect with the target already read: the link register takes IP, then IP takes the target
(R231, R232). -/
def State.linkAndJump (s : State) (target : Word) : State :=
  (s.writeReg .ac (s.readReg .ip)).writeReg .ip target

/-- JMZ's effect with condition and target already read (R233, R234). `links` is `JMZ_LINKS` (D14): where it
is set, a taken jump writes the link register as JMP does. -/
def State.jumpIfZero (s : State) (links : Bool) (cond target : Word) : State :=
  if cond = 0 then
    if links then s.linkAndJump target else s.writeReg .ip target
  else s

/-! ### Fetch (R46, R100) -/

/-- Byte `k` of the instruction at IP: `Mem[(x[IP] + k) mod 65536]`. -/
def State.fetchByte (s : State) (k : Nat) : Byte := s.readByte (addrAdd (s.readReg .ip) k)

/-- The instruction at IP. `decodeAt` looks at byte 0 and at the further bytes of the instruction's layout,
no others. -/
def State.fetch (s : State) : Instr := decodeAt s.fetchByte

/-- The IP advance of R100: past the `n` bytes of the fetched instruction, before it executes. -/
def State.advanceIp (s : State) (n : Nat) : State := s.writeReg .ip (addrAdd (s.readReg .ip) n)

/-- Store bytes where the next instruction is fetched, from IP upward (modulo 65,536). -/
def State.storeAtIp (s : State) : Nat → List Byte → State
  | _, [] => s
  | k, v :: vs => (s.writeByte (addrAdd (s.readReg .ip) k) v).storeAtIp (k + 1) vs

end Sys2Proof.Machine
end

