-- ==== Sys2Proof/Machine/Admission.lean ====
section
/-! DEFINITION. The steps that the machine refuses where a parameter of R5 has the value `refuse`: `PAD_CHECK`
(92_eei_decisions.md D6), `ADDR_WRAP` (D9) and `ALIAS_ORDER` (D10). None of them has it in `params`, and under
`params` no step is refused (`admission_params`, Laws/Ops.lean). DESIGN CHOICE: which steps a `refuse` names, read
from the cases that 93_implementation_defined.md U3, U7 and U8 list (log 21); safe. -/

namespace Sys2Proof.Machine

/-- The address `a` and the address after it, not reduced modulo 65,536. -/
def wordSpan (a : Word) : List Int := [unsigned16 a, unsigned16 a + 1]

/-- What the address arithmetic of a meaning gives before it is reduced modulo 65,536: the bytes of a word at its
two ends and the new SP of a push or a pop (U7), computed from the state the meaning runs on. -/
def unreducedAddrs (i : Instr) (s : State) : List Int :=
  match i with
  | .ldwRR _ addr | .stwRR addr _ | .stwRI addr _ => wordSpan (s.readReg addr)
  | .ldwRI _ addr | .stwIR addr _ | .stwII addr _ => wordSpan addr
  | .pshbR _ | .pshbI _ => [unsigned16 (s.readReg .sp) - 1]
  | .pshwR _ | .pshwI _ => [unsigned16 (s.readReg .sp) - 2]
  | .popbR _ => [unsigned16 (s.readReg .sp) + 1]
  | .popwR _ => [unsigned16 (s.readReg .sp) + 2]
  | .setRR _ _ | .setRI _ _ | .ldbRR _ _ | .ldbRI _ _ | .stbRR _ _ | .stbRI _ _ | .stbIR _ _ | .stbII _ _
  | .addRRR _ _ _ | .addRRI _ _ _ | .subRRR _ _ _ | .subRRI _ _ _ | .subRIR _ _ _ | .mulRRR _ _ _
  | .mulRRI _ _ _ | .divsRRR _ _ _ | .divuRRR _ _ _ | .remsRRR _ _ _ | .remuRRR _ _ _ | .andRRR _ _ _
  | .andRRI _ _ _ | .iorRRR _ _ _ | .iorRRI _ _ _ | .xorRRR _ _ _ | .xorRRI _ _ _ | .lshRRR _ _ _
  | .lshRRI _ _ _ | .lshRIR _ _ _ | .rshsRRR _ _ _ | .rshsRRI _ _ _ | .rshsRIR _ _ _ | .rshuRRR _ _ _
  | .rshuRRI _ _ _ | .rshuRIR _ _ _ | .ceqRRR _ _ _ | .ceqRRI _ _ _ | .ceqRIR _ _ _ | .cneRRR _ _ _
  | .cneRRI _ _ _ | .cneRIR _ _ _ | .cltsRRR _ _ _ | .cltsRRI _ _ _ | .cltsRIR _ _ _ | .cltuRRR _ _ _
  | .cltuRRI _ _ _ | .cltuRIR _ _ _ | .cgesRRR _ _ _ | .cgesRRI _ _ _ | .cgesRIR _ _ _ | .cgeuRRR _ _ _
  | .cgeuRRI _ _ _ | .cgeuRIR _ _ _ | .jmpR _ | .jmpI _ | .jmzRR _ _ | .jmzRI _ _ | .nop | .slp => []

/-- Whether a number is no address: it lies outside 0..65,535 (R24). -/
def outOfMemory (a : Int) : Bool := a < 0 || (Config.memBytes : Int) ≤ a

/-- Whether the step at IP crosses the top of the address space (U7): the advance of IP past the instruction's
bytes, or an address that its meaning computes. -/
def State.wraps (s : State) : Bool :=
  outOfMemory (unsigned16 (s.readReg .ip) + s.fetch.length) ||
    (unreducedAddrs s.fetch (s.advanceIp s.fetch.length)).any outOfMemory

/-- Whether an instruction is one of those in which the order of reads and writes shows: a push or a pop of SP, a
jump through AC (U8). -/
def orderShows (i : Instr) : Bool :=
  i = .pshbR .sp || i = .pshwR .sp || i = .popbR .sp || i = .popwR .sp || i = .jmpR .ac

/-- The pad nibble of the instruction at IP (R72); 0 where it has none. -/
def State.fetchPad (s : State) : Nibble := s.fetch.opcode.layout.pad s.fetchByte

/-- Why the parameters `p` refuse the step at `s` before it executes; `none` where they admit it. -/
def State.admission (p : Config.Params) (s : State) : Option Refusal :=
  if p.padCheck = .refuse ∧ s.fetchPad ≠ 0 then some .padNotZero
  else if p.addrWrap = .refuse ∧ s.wraps = true then some .addressWraps
  else if p.aliasOrder = .refuse ∧ orderShows s.fetch = true then some .aliasedOperand
  else none

end Sys2Proof.Machine
end

