-- ==== Sys2Proof/Machine/Alu.lean ====
section
/-! DEFINITION. The 16-bit functions of the arithmetic, bitwise and shift instructions (42_arithmetic.md R160
to R173, 43_logic_shift.md R180 to R196). Exact results are computed in the integers and narrowed at the end. -/

namespace Sys2Proof.Machine

/-- ADD: `u16(p + q)` (R161). -/
def aluAdd (p q : Word) : Word := u16 (unsigned16 p + unsigned16 q)

/-- SUB: `u16(p - q)` (R163). -/
def aluSub (p q : Word) : Word := u16 (unsigned16 p - unsigned16 q)

/-- MUL: `u16(p * q)`, the low half of the product (R166). -/
def aluMul (p q : Word) : Word := u16 (unsigned16 p * unsigned16 q)

/-- The signed quotient of a non-zero divisor under a value of `DIVS_ROUND` (D13). -/
def signedQuotient (m : Config.DivsRound) (p q : Int) : Int :=
  match m with
  | .trunc => p.tdiv q
  | .floor => p.fdiv q

/-- DIVS: the sentinels for a zero divisor, else the rounded quotient (R168). -/
def aluDivs (m : Config.DivsRound) (p q : Word) : Word :=
  if q = 0 then
    if 0 < s16 p then 0x7FFF
    else if s16 p < 0 then 0x8000
    else 0x0000
  else u16 (signedQuotient m (s16 p) (s16 q))

/-- DIVU: the sentinels for a zero divisor, else the floor of the quotient (R169). -/
def aluDivu (p q : Word) : Word :=
  if q = 0 then
    if p = 0 then 0x0000 else 0xFFFF
  else u16 (unsigned16 p / unsigned16 q)

/-- REMS: the dividend for a zero divisor, else dividend minus divisor times quotient (R170). -/
def aluRems (m : Config.DivsRound) (p q : Word) : Word :=
  if q = 0 then p
  else u16 (s16 p - s16 q * signedQuotient m (s16 p) (s16 q))

/-- REMU: the dividend for a zero divisor, else `p mod q` (R171). -/
def aluRemu (p q : Word) : Word :=
  if q = 0 then p
  else u16 (unsigned16 p % unsigned16 q)

/-- AND: bit by bit (R181). -/
def aluAnd (p q : Word) : Word := p &&& q

/-- IOR: bit by bit (R183). -/
def aluIor (p q : Word) : Word := p ||| q

/-- XOR: bit by bit (R185). -/
def aluXor (p q : Word) : Word := p ^^^ q

/-- LSH for an amount below 16: zeros enter at bit 0 (R187). -/
def shiftLeft (v : Word) (n : Nat) : Word := u16 (unsigned16 v * ((2 ^ n : Nat) : Int))

/-- RSHU for an amount below 16: zeros enter at bit 15 (R187). -/
def shiftRightUnsigned (v : Word) (n : Nat) : Word := u16 (unsigned16 v / ((2 ^ n : Nat) : Int))

/-- RSHS for an amount below 16: copies of bit 15 enter at bit 15; rounds toward minus infinity (R187). -/
def shiftRightSigned (v : Word) (n : Nat) : Word := u16 (s16 v / ((2 ^ n : Nat) : Int))

/-- LSH for every amount (R187): from 16 on, 0 under `saturate`, the amount modulo 16 under `mod16` (D12). -/
def aluLsh (m : Config.ShiftMode) (v n : Word) : Word :=
  if n.toNat < 16 then shiftLeft v n.toNat
  else
    match m with
    | .saturate => 0x0000
    | .mod16 => shiftLeft v (n.toNat % 16)

/-- RSHU for every amount (R187). -/
def aluRshu (m : Config.ShiftMode) (v n : Word) : Word :=
  if n.toNat < 16 then shiftRightUnsigned v n.toNat
  else
    match m with
    | .saturate => 0x0000
    | .mod16 => shiftRightUnsigned v (n.toNat % 16)

/-- RSHS for every amount (R187): from 16 on, 0x0000 or 0xFFFF by the sign under `saturate`. -/
def aluRshs (m : Config.ShiftMode) (v n : Word) : Word :=
  if n.toNat < 16 then shiftRightSigned v n.toNat
  else
    match m with
    | .saturate => if s16 v < 0 then 0xFFFF else 0x0000
    | .mod16 => shiftRightSigned v (n.toNat % 16)

end Sys2Proof.Machine
end

