-- ==== Sys2Proof/Machine/Operands.lean ====
section
/-! DEFINITION. The operand frames: where the sources of an instruction come from and where its result goes.
Two-source operations: 42_arithmetic.md R160. Addresses: 40_data_movement.md R130 (register or immediate).
Both sources are read before the destination is written (10_state.md R20, D10; log 9). -/

namespace Sys2Proof.Machine

/-- The frame `_rrr`: `x[d] <- f(x[s1], x[s2])`. -/
def State.opRRR (s : State) (f : Word → Word → Word) (d s1 s2 : Reg) : State :=
  s.writeReg d (f (s.readReg s1) (s.readReg s2))

/-- The frame `_rri`: `x[d] <- f(x[s1], v)`, `v` an immediate. -/
def State.opRRI (s : State) (f : Word → Word → Word) (d s1 : Reg) (v : Word) : State :=
  s.writeReg d (f (s.readReg s1) v)

/-- The frame `_rir`, the mirror: `x[d] <- f(v, x[s2])`, the immediate on the left. -/
def State.opRIR (s : State) (f : Word → Word → Word) (d : Reg) (v : Word) (s2 : Reg) : State :=
  s.writeReg d (f v (s.readReg s2))

/-- A byte load from a resolved address (R133, R134). -/
def State.loadByte (s : State) (d : Reg) (addr : Word) : State := s.writeReg d (s.memRead1 addr)

/-- A word load from a resolved address (R135, R136). -/
def State.loadWord (s : State) (d : Reg) (addr : Word) : State := s.writeReg d (s.memRead2 addr)

end Sys2Proof.Machine
end

