-- ==== Sys2Proof/Machine/Arithmetic.lean ====
section
/-! DEFINITION. The meanings of ADD, SUB, MUL, DIVS, DIVU, REMS, REMU (42_arithmetic.md R160 to R173).
Each runs on a state whose IP is already the address of the following instruction (10_state.md R14). -/

namespace Sys2Proof.Machine

/-- ADD_rrr (R161): the sum modulo 65,536. -/
def execAddRRR (d : Reg) (s1 : Reg) (s2 : Reg) (s : State) : Result :=
  .next (s.opRRR aluAdd d s1 s2)

/-- ADD_rri (R162): the sum modulo 65,536. -/
def execAddRRI (d : Reg) (s1 : Reg) (v : Word) (s : State) : Result :=
  .next (s.opRRI aluAdd d s1 v)

/-- SUB_rrr (R163): left minus right modulo 65,536. -/
def execSubRRR (d : Reg) (s1 : Reg) (s2 : Reg) (s : State) : Result :=
  .next (s.opRRR aluSub d s1 s2)

/-- SUB_rri (R164): left minus right modulo 65,536. -/
def execSubRRI (d : Reg) (s1 : Reg) (v : Word) (s : State) : Result :=
  .next (s.opRRI aluSub d s1 v)

/-- SUB_rir (R165): left minus right modulo 65,536, the immediate on the left. -/
def execSubRIR (d : Reg) (v : Word) (s2 : Reg) (s : State) : Result :=
  .next (s.opRIR aluSub d v s2)

/-- MUL_rrr (R166): the low 16 bits of the product. -/
def execMulRRR (d : Reg) (s1 : Reg) (s2 : Reg) (s : State) : Result :=
  .next (s.opRRR aluMul d s1 s2)

/-- MUL_rri (R167): the low 16 bits of the product. -/
def execMulRRI (d : Reg) (s1 : Reg) (v : Word) (s : State) : Result :=
  .next (s.opRRI aluMul d s1 v)

/-- DIVS_rrr (R168): the signed quotient, or the sentinel for a zero divisor. -/
def execDivsRRR (d : Reg) (s1 : Reg) (s2 : Reg) (s : State) : Result :=
  .next (s.opRRR (aluDivs params.divsRound) d s1 s2)

/-- DIVU_rrr (R169): the unsigned quotient, or the sentinel for a zero divisor. -/
def execDivuRRR (d : Reg) (s1 : Reg) (s2 : Reg) (s : State) : Result :=
  .next (s.opRRR aluDivu d s1 s2)

/-- REMS_rrr (R170): the signed remainder; the dividend for a zero divisor. -/
def execRemsRRR (d : Reg) (s1 : Reg) (s2 : Reg) (s : State) : Result :=
  .next (s.opRRR (aluRems params.divsRound) d s1 s2)

/-- REMU_rrr (R171): the unsigned remainder; the dividend for a zero divisor. -/
def execRemuRRR (d : Reg) (s1 : Reg) (s2 : Reg) (s : State) : Result :=
  .next (s.opRRR aluRemu d s1 s2)

end Sys2Proof.Machine
end

