-- ==== Sys2Proof/Machine/Flags.lean ====
section
/-! DEFINITION. The hardware has no flags and no condition codes (10_state.md R21): no instruction sets a carry,
overflow, zero or sign flag. What stands in their place are the six relations of the comparison instructions,
which give 0 or 1 as a 16-bit value (44_compare.md R200 to R218). -/

namespace Sys2Proof.Machine

/-- The value of a comparison: 0x0001 where the relation holds, 0x0000 where it does not (R200). -/
def truthWord (b : Bool) : Word := if b then 0x0001 else 0x0000

/-- CEQ: equal (R201). -/
def compareEq (p q : Word) : Word := truthWord (p == q)

/-- CNE: not equal (R204). -/
def compareNe (p q : Word) : Word := truthWord (p != q)

/-- CLTS: less than, signed (R207). -/
def compareLts (p q : Word) : Word := truthWord (decide (s16 p < s16 q))

/-- CLTU: less than, unsigned (R210). -/
def compareLtu (p q : Word) : Word := truthWord (decide (unsigned16 p < unsigned16 q))

/-- CGES: greater than or equal, signed (R213). -/
def compareGes (p q : Word) : Word := truthWord (decide (s16 p ≥ s16 q))

/-- CGEU: greater than or equal, unsigned (R216). -/
def compareGeu (p q : Word) : Word := truthWord (decide (unsigned16 p ≥ unsigned16 q))

end Sys2Proof.Machine
end

