-- ==== Sys2Proof/Machine/Compare.lean ====
section
/-! DEFINITION. The meanings of CEQ, CNE, CLTS, CLTU, CGES, CGEU (44_compare.md R200 to R218).
Each runs on a state whose IP is already the address of the following instruction (10_state.md R14). -/

namespace Sys2Proof.Machine

/-- CEQ_rrr (R201): equal. -/
def execCeqRRR (d : Reg) (s1 : Reg) (s2 : Reg) (s : State) : Result :=
  .next (s.opRRR compareEq d s1 s2)

/-- CEQ_rri (R202): equal. -/
def execCeqRRI (d : Reg) (s1 : Reg) (v : Word) (s : State) : Result :=
  .next (s.opRRI compareEq d s1 v)

/-- CEQ_rir (R203): equal, the immediate on the left. -/
def execCeqRIR (d : Reg) (v : Word) (s2 : Reg) (s : State) : Result :=
  .next (s.opRIR compareEq d v s2)

/-- CNE_rrr (R204): not equal. -/
def execCneRRR (d : Reg) (s1 : Reg) (s2 : Reg) (s : State) : Result :=
  .next (s.opRRR compareNe d s1 s2)

/-- CNE_rri (R205): not equal. -/
def execCneRRI (d : Reg) (s1 : Reg) (v : Word) (s : State) : Result :=
  .next (s.opRRI compareNe d s1 v)

/-- CNE_rir (R206): not equal, the immediate on the left. -/
def execCneRIR (d : Reg) (v : Word) (s2 : Reg) (s : State) : Result :=
  .next (s.opRIR compareNe d v s2)

/-- CLTS_rrr (R207): less than, signed. -/
def execCltsRRR (d : Reg) (s1 : Reg) (s2 : Reg) (s : State) : Result :=
  .next (s.opRRR compareLts d s1 s2)

/-- CLTS_rri (R208): less than, signed. -/
def execCltsRRI (d : Reg) (s1 : Reg) (v : Word) (s : State) : Result :=
  .next (s.opRRI compareLts d s1 v)

/-- CLTS_rir (R209): less than, signed, the immediate on the left. -/
def execCltsRIR (d : Reg) (v : Word) (s2 : Reg) (s : State) : Result :=
  .next (s.opRIR compareLts d v s2)

/-- CLTU_rrr (R210): less than, unsigned. -/
def execCltuRRR (d : Reg) (s1 : Reg) (s2 : Reg) (s : State) : Result :=
  .next (s.opRRR compareLtu d s1 s2)

/-- CLTU_rri (R211): less than, unsigned. -/
def execCltuRRI (d : Reg) (s1 : Reg) (v : Word) (s : State) : Result :=
  .next (s.opRRI compareLtu d s1 v)

/-- CLTU_rir (R212): less than, unsigned, the immediate on the left. -/
def execCltuRIR (d : Reg) (v : Word) (s2 : Reg) (s : State) : Result :=
  .next (s.opRIR compareLtu d v s2)

/-- CGES_rrr (R213): greater than or equal, signed. -/
def execCgesRRR (d : Reg) (s1 : Reg) (s2 : Reg) (s : State) : Result :=
  .next (s.opRRR compareGes d s1 s2)

/-- CGES_rri (R214): greater than or equal, signed. -/
def execCgesRRI (d : Reg) (s1 : Reg) (v : Word) (s : State) : Result :=
  .next (s.opRRI compareGes d s1 v)

/-- CGES_rir (R215): greater than or equal, signed, the immediate on the left. -/
def execCgesRIR (d : Reg) (v : Word) (s2 : Reg) (s : State) : Result :=
  .next (s.opRIR compareGes d v s2)

/-- CGEU_rrr (R216): greater than or equal, unsigned. -/
def execCgeuRRR (d : Reg) (s1 : Reg) (s2 : Reg) (s : State) : Result :=
  .next (s.opRRR compareGeu d s1 s2)

/-- CGEU_rri (R217): greater than or equal, unsigned. -/
def execCgeuRRI (d : Reg) (s1 : Reg) (v : Word) (s : State) : Result :=
  .next (s.opRRI compareGeu d s1 v)

/-- CGEU_rir (R218): greater than or equal, unsigned, the immediate on the left. -/
def execCgeuRIR (d : Reg) (v : Word) (s2 : Reg) (s : State) : Result :=
  .next (s.opRIR compareGeu d v s2)

end Sys2Proof.Machine
end

