-- ==== Sys2Proof/Machine/Control.lean ====
section
/-! DEFINITION. The meanings of JMP, JMZ, NOP, SLP (45_control.md R230 to R237).
Each runs on a state whose IP is already the address of the following instruction (10_state.md R14). -/

namespace Sys2Proof.Machine

/-- JMP_r (R231): jump to `x[target]`, read before the link is written. -/
def execJmpR (target : Reg) (s : State) : Result :=
  .next (s.linkAndJump (s.readReg target))

/-- JMP_i (R232): jump to `target`, the link register taking the advanced IP. -/
def execJmpI (target : Word) (s : State) : Result :=
  .next (s.linkAndJump target)

/-- JMZ_rr (R233): jump to `x[target]` where `x[cond]` is 0; the link register is not written (D14). -/
def execJmzRR (cond : Reg) (target : Reg) (s : State) : Result :=
  .next (s.jumpIfZero params.jmzLinks (s.readReg cond) (s.readReg target))

/-- JMZ_ri (R234): jump to `target` where `x[cond]` is 0; the link register is not written (D14). -/
def execJmzRI (cond : Reg) (target : Word) (s : State) : Result :=
  .next (s.jumpIfZero params.jmzLinks (s.readReg cond) target)

/-- NOP (R235): nothing but the IP advance of the step. -/
def execNop (s : State) : Result :=
  .next s

/-- SLP (R236): the empty stub, nothing but the IP advance of the step; no pause, no state.
DESIGN CHOICE: the spec admits `refuse` and `stub`, the model takes `stub` (D15, log 1); unsafe. -/
def execSlp (s : State) : Result :=
  match params.slpTreatment with
  | .stub => .next s
  | .refuse => .refused .slpUnspecified

end Sys2Proof.Machine
end

