-- ==== Sys2Proof/Machine/DataMovement.lean ====
section
/-! DEFINITION. The meanings of SET, LDB, LDW, STB, STW (40_data_movement.md R130 to R144).
Each runs on a state whose IP is already the address of the following instruction (10_state.md R14). -/

namespace Sys2Proof.Machine

/-- SET_rr (R131): `x[d] <- x[src]`. -/
def execSetRR (d : Reg) (src : Reg) (s : State) : Result :=
  .next (s.writeReg d (s.readReg src))

/-- SET_ri (R132): `x[d] <- v`. -/
def execSetRI (d : Reg) (v : Word) (s : State) : Result :=
  .next (s.writeReg d v)

/-- LDB_rr (R133): a byte from the address in `addr`, widened. -/
def execLdbRR (d : Reg) (addr : Reg) (s : State) : Result :=
  .next (s.loadByte d (s.readReg addr))

/-- LDB_ri (R134): a byte from the address `addr`, widened. -/
def execLdbRI (d : Reg) (addr : Word) (s : State) : Result :=
  .next (s.loadByte d addr)

/-- LDW_rr (R135): a word from the address in `addr`. -/
def execLdwRR (d : Reg) (addr : Reg) (s : State) : Result :=
  .next (s.loadWord d (s.readReg addr))

/-- LDW_ri (R136): a word from the address `addr`. -/
def execLdwRI (d : Reg) (addr : Word) (s : State) : Result :=
  .next (s.loadWord d addr)

/-- STB_rr (R137): the low byte of `x[src]` to the address in `addr`. -/
def execStbRR (addr : Reg) (src : Reg) (s : State) : Result :=
  .next (s.memWrite1 (s.readReg addr) (s.readReg src))

/-- STB_ri (R138): the 8-bit value `v` to the address in `addr`. -/
def execStbRI (addr : Reg) (v : Word) (s : State) : Result :=
  .next (s.memWrite1 (s.readReg addr) v)

/-- STB_ir (R139): the low byte of `x[src]` to the address `addr`. -/
def execStbIR (addr : Word) (src : Reg) (s : State) : Result :=
  .next (s.memWrite1 addr (s.readReg src))

/-- STB_ii (R140): the low byte of `v` to the address `addr`; the high byte of `v` is ignored. -/
def execStbII (addr : Word) (v : Word) (s : State) : Result :=
  .next (s.memWrite1 addr v)

/-- STW_rr (R141): the word `x[src]` to the address in `addr`. -/
def execStwRR (addr : Reg) (src : Reg) (s : State) : Result :=
  .next (s.memWrite2 (s.readReg addr) (s.readReg src))

/-- STW_ri (R142): the word `v` to the address in `addr`. -/
def execStwRI (addr : Reg) (v : Word) (s : State) : Result :=
  .next (s.memWrite2 (s.readReg addr) v)

/-- STW_ir (R143): the word `x[src]` to the address `addr`. -/
def execStwIR (addr : Word) (src : Reg) (s : State) : Result :=
  .next (s.memWrite2 addr (s.readReg src))

/-- STW_ii (R144): the word `v` to the address `addr`. -/
def execStwII (addr : Word) (v : Word) (s : State) : Result :=
  .next (s.memWrite2 addr v)

end Sys2Proof.Machine
end

