-- ==== Sys2Proof/Machine/LogicShift.lean ====
section
/-! DEFINITION. The meanings of AND, IOR, XOR, LSH, RSHS, RSHU (43_logic_shift.md R180 to R196).
Each runs on a state whose IP is already the address of the following instruction (10_state.md R14). -/

namespace Sys2Proof.Machine

/-- AND_rrr (R181): bitwise and. -/
def execAndRRR (d : Reg) (s1 : Reg) (s2 : Reg) (s : State) : Result :=
  .next (s.opRRR aluAnd d s1 s2)

/-- AND_rri (R182): bitwise and. -/
def execAndRRI (d : Reg) (s1 : Reg) (v : Word) (s : State) : Result :=
  .next (s.opRRI aluAnd d s1 v)

/-- IOR_rrr (R183): bitwise inclusive or. -/
def execIorRRR (d : Reg) (s1 : Reg) (s2 : Reg) (s : State) : Result :=
  .next (s.opRRR aluIor d s1 s2)

/-- IOR_rri (R184): bitwise inclusive or. -/
def execIorRRI (d : Reg) (s1 : Reg) (v : Word) (s : State) : Result :=
  .next (s.opRRI aluIor d s1 v)

/-- XOR_rrr (R185): bitwise exclusive or. -/
def execXorRRR (d : Reg) (s1 : Reg) (s2 : Reg) (s : State) : Result :=
  .next (s.opRRR aluXor d s1 s2)

/-- XOR_rri (R186): bitwise exclusive or. -/
def execXorRRI (d : Reg) (s1 : Reg) (v : Word) (s : State) : Result :=
  .next (s.opRRI aluXor d s1 v)

/-- LSH_rrr (R188): left shift. -/
def execLshRRR (d : Reg) (src : Reg) (n : Reg) (s : State) : Result :=
  .next (s.opRRR (aluLsh params.shiftMode) d src n)

/-- LSH_rri (R189): left shift. -/
def execLshRRI (d : Reg) (src : Reg) (n : Word) (s : State) : Result :=
  .next (s.opRRI (aluLsh params.shiftMode) d src n)

/-- LSH_rir (R190): left shift, the immediate on the left. -/
def execLshRIR (d : Reg) (v : Word) (n : Reg) (s : State) : Result :=
  .next (s.opRIR (aluLsh params.shiftMode) d v n)

/-- RSHS_rrr (R191): signed right shift. -/
def execRshsRRR (d : Reg) (src : Reg) (n : Reg) (s : State) : Result :=
  .next (s.opRRR (aluRshs params.shiftMode) d src n)

/-- RSHS_rri (R192): signed right shift. -/
def execRshsRRI (d : Reg) (src : Reg) (n : Word) (s : State) : Result :=
  .next (s.opRRI (aluRshs params.shiftMode) d src n)

/-- RSHS_rir (R193): signed right shift, the immediate on the left. -/
def execRshsRIR (d : Reg) (v : Word) (n : Reg) (s : State) : Result :=
  .next (s.opRIR (aluRshs params.shiftMode) d v n)

/-- RSHU_rrr (R194): unsigned right shift. -/
def execRshuRRR (d : Reg) (src : Reg) (n : Reg) (s : State) : Result :=
  .next (s.opRRR (aluRshu params.shiftMode) d src n)

/-- RSHU_rri (R195): unsigned right shift. -/
def execRshuRRI (d : Reg) (src : Reg) (n : Word) (s : State) : Result :=
  .next (s.opRRI (aluRshu params.shiftMode) d src n)

/-- RSHU_rir (R196): unsigned right shift, the immediate on the left. -/
def execRshuRIR (d : Reg) (v : Word) (n : Reg) (s : State) : Result :=
  .next (s.opRIR (aluRshu params.shiftMode) d v n)

end Sys2Proof.Machine
end

