-- ==== Sys2Proof/Machine/Stack.lean ====
section
/-! DEFINITION. The meanings of PSHB, PSHW, POPB, POPW (41_stack.md R150 to R156).
Each runs on a state whose IP is already the address of the following instruction (10_state.md R14). -/

namespace Sys2Proof.Machine

/-- PSHB_r (R151): push the low byte of `x[src]`, read before SP moves. -/
def execPshbR (src : Reg) (s : State) : Result :=
  .next (s.push1 (s.readReg src))

/-- PSHB_i (R152): push the 8-bit value `v`. -/
def execPshbI (v : Word) (s : State) : Result :=
  .next (s.push1 v)

/-- PSHW_r (R153): push the word `x[src]`, read before SP moves. -/
def execPshwR (src : Reg) (s : State) : Result :=
  .next (s.push2 (s.readReg src))

/-- PSHW_i (R154): push the word `v`. -/
def execPshwI (v : Word) (s : State) : Result :=
  .next (s.push2 v)

/-- POPB_r (R155): pop a byte into `d`, which is written last. -/
def execPopbR (d : Reg) (s : State) : Result :=
  .next (s.pop1 d)

/-- POPW_r (R156): pop a word into `d`, which is written last. -/
def execPopwR (d : Reg) (s : State) : Result :=
  .next (s.pop2 d)

end Sys2Proof.Machine
end

