-- ==== Sys2Proof/Machine/Dispatch.lean ====
section
/-! DEFINITION. The dispatch: one arm per constructor of `Instr` (30_encoding.md R90), each one call of the
instruction's own meaning. -/

namespace Sys2Proof.Machine

def exec (i : Instr) (s : State) : Host.Outcome State Fault Refusal :=
  match i with
  | .nop => Sys2Proof.Machine.execNop s
  | .setRR d src => Sys2Proof.Machine.execSetRR d src s
  | .setRI d v => Sys2Proof.Machine.execSetRI d v s
  | .ldbRR d addr => Sys2Proof.Machine.execLdbRR d addr s
  | .ldbRI d addr => Sys2Proof.Machine.execLdbRI d addr s
  | .ldwRR d addr => Sys2Proof.Machine.execLdwRR d addr s
  | .ldwRI d addr => Sys2Proof.Machine.execLdwRI d addr s
  | .stbRR addr src => Sys2Proof.Machine.execStbRR addr src s
  | .stbRI addr v => Sys2Proof.Machine.execStbRI addr v s
  | .stbIR addr src => Sys2Proof.Machine.execStbIR addr src s
  | .stbII addr v => Sys2Proof.Machine.execStbII addr v s
  | .stwRR addr src => Sys2Proof.Machine.execStwRR addr src s
  | .stwRI addr v => Sys2Proof.Machine.execStwRI addr v s
  | .stwIR addr src => Sys2Proof.Machine.execStwIR addr src s
  | .stwII addr v => Sys2Proof.Machine.execStwII addr v s
  | .pshbR src => Sys2Proof.Machine.execPshbR src s
  | .pshbI v => Sys2Proof.Machine.execPshbI v s
  | .pshwR src => Sys2Proof.Machine.execPshwR src s
  | .pshwI v => Sys2Proof.Machine.execPshwI v s
  | .popbR d => Sys2Proof.Machine.execPopbR d s
  | .popwR d => Sys2Proof.Machine.execPopwR d s
  | .addRRR d s1 s2 => Sys2Proof.Machine.execAddRRR d s1 s2 s
  | .addRRI d s1 v => Sys2Proof.Machine.execAddRRI d s1 v s
  | .subRRR d s1 s2 => Sys2Proof.Machine.execSubRRR d s1 s2 s
  | .subRRI d s1 v => Sys2Proof.Machine.execSubRRI d s1 v s
  | .subRIR d v s2 => Sys2Proof.Machine.execSubRIR d v s2 s
  | .mulRRR d s1 s2 => Sys2Proof.Machine.execMulRRR d s1 s2 s
  | .mulRRI d s1 v => Sys2Proof.Machine.execMulRRI d s1 v s
  | .divsRRR d s1 s2 => Sys2Proof.Machine.execDivsRRR d s1 s2 s
  | .divuRRR d s1 s2 => Sys2Proof.Machine.execDivuRRR d s1 s2 s
  | .remsRRR d s1 s2 => Sys2Proof.Machine.execRemsRRR d s1 s2 s
  | .remuRRR d s1 s2 => Sys2Proof.Machine.execRemuRRR d s1 s2 s
  | .andRRR d s1 s2 => Sys2Proof.Machine.execAndRRR d s1 s2 s
  | .andRRI d s1 v => Sys2Proof.Machine.execAndRRI d s1 v s
  | .iorRRR d s1 s2 => Sys2Proof.Machine.execIorRRR d s1 s2 s
  | .iorRRI d s1 v => Sys2Proof.Machine.execIorRRI d s1 v s
  | .xorRRR d s1 s2 => Sys2Proof.Machine.execXorRRR d s1 s2 s
  | .xorRRI d s1 v => Sys2Proof.Machine.execXorRRI d s1 v s
  | .lshRRR d src n => Sys2Proof.Machine.execLshRRR d src n s
  | .lshRRI d src n => Sys2Proof.Machine.execLshRRI d src n s
  | .lshRIR d v n => Sys2Proof.Machine.execLshRIR d v n s
  | .rshsRRR d src n => Sys2Proof.Machine.execRshsRRR d src n s
  | .rshsRRI d src n => Sys2Proof.Machine.execRshsRRI d src n s
  | .rshsRIR d v n => Sys2Proof.Machine.execRshsRIR d v n s
  | .rshuRRR d src n => Sys2Proof.Machine.execRshuRRR d src n s
  | .rshuRRI d src n => Sys2Proof.Machine.execRshuRRI d src n s
  | .rshuRIR d v n => Sys2Proof.Machine.execRshuRIR d v n s
  | .ceqRRR d s1 s2 => Sys2Proof.Machine.execCeqRRR d s1 s2 s
  | .ceqRRI d s1 v => Sys2Proof.Machine.execCeqRRI d s1 v s
  | .ceqRIR d v s2 => Sys2Proof.Machine.execCeqRIR d v s2 s
  | .cneRRR d s1 s2 => Sys2Proof.Machine.execCneRRR d s1 s2 s
  | .cneRRI d s1 v => Sys2Proof.Machine.execCneRRI d s1 v s
  | .cneRIR d v s2 => Sys2Proof.Machine.execCneRIR d v s2 s
  | .cltsRRR d s1 s2 => Sys2Proof.Machine.execCltsRRR d s1 s2 s
  | .cltsRRI d s1 v => Sys2Proof.Machine.execCltsRRI d s1 v s
  | .cltsRIR d v s2 => Sys2Proof.Machine.execCltsRIR d v s2 s
  | .cltuRRR d s1 s2 => Sys2Proof.Machine.execCltuRRR d s1 s2 s
  | .cltuRRI d s1 v => Sys2Proof.Machine.execCltuRRI d s1 v s
  | .cltuRIR d v s2 => Sys2Proof.Machine.execCltuRIR d v s2 s
  | .cgesRRR d s1 s2 => Sys2Proof.Machine.execCgesRRR d s1 s2 s
  | .cgesRRI d s1 v => Sys2Proof.Machine.execCgesRRI d s1 v s
  | .cgesRIR d v s2 => Sys2Proof.Machine.execCgesRIR d v s2 s
  | .cgeuRRR d s1 s2 => Sys2Proof.Machine.execCgeuRRR d s1 s2 s
  | .cgeuRRI d s1 v => Sys2Proof.Machine.execCgeuRRI d s1 v s
  | .cgeuRIR d v s2 => Sys2Proof.Machine.execCgeuRIR d v s2 s
  | .jmpR target => Sys2Proof.Machine.execJmpR target s
  | .jmpI target => Sys2Proof.Machine.execJmpI target s
  | .jmzRR cond target => Sys2Proof.Machine.execJmzRR cond target s
  | .jmzRI cond target => Sys2Proof.Machine.execJmzRI cond target s
  | .slp => Sys2Proof.Machine.execSlp s

end Sys2Proof.Machine
end

