-- ==== Sys2Proof/Machine/Step.lean ====
section
/-! DEFINITION. One step of the core (30_encoding.md R100, 00_scope.md R8), and where a test places the next
instruction. -/

namespace Sys2Proof.Machine

/-- One step (R100): fetch and decode the instruction at IP, advance IP by the length its opcode byte decides,
then execute; the meaning sees the advanced IP (10_state.md R14). A step that a parameter of R5 refuses does not
begin; `params` refuses none. -/
def step (s : State) : Host.Outcome State Fault Refusal :=
  match s.admission params with
  | some reason => .refused reason
  | none => exec s.fetch (s.advanceIp (lengthOfByte (s.fetchByte 0)))

/-- `s` with the instruction whose bits are `w` (numbered as spec/opcode_table.json numbers them, the bits
above `nbits` zero) stored at IP, so that `step` fetches and runs it. It stands for the driver's load of a
program (R260; log 3). -/
def State.withFetchWord (s : State) (nbits w : Nat) : State := s.storeAtIp 0 (bytesOfTableWord nbits w)

end Sys2Proof.Machine
end

