-- ==== Sys2Proof/Machine/Assembler.lean ====
section
/-! DEFINITION. The assembler: what bytes the lines of a program become (30_encoding.md R112 to R123). It is
software outside the core, in scope as far as it decides the image (00_scope.md R3). Its input are parsed
lines; Machine/Parser.lean makes them from text. -/

namespace Sys2Proof.Assembler

open Machine

/-- A label name, compared by its characters (R118). -/
abbrev Name := List Char

/-- An operand as written (R110, R111): a register, a number, or a reference to a label. -/
inductive Operand where
  | reg (r : Reg)
  | imm (v : Int)
  | label (n : Name)
  deriving DecidableEq, Repr

/-- The field an immediate operand goes to. -/
inductive ImmField where
  | bits4
  | bits8
  /-- STB_ii's value: an 8-bit value in a 16-bit field (D21) -/
  | byteIn16
  | bits16
  deriving DecidableEq, Repr

/-- What a variant expects in one operand position (R113). -/
inductive OperandKind where
  | reg
  | imm (f : ImmField)
  deriving DecidableEq, Repr

/-- A label line: a name, an address, or both (R110, 90_conflicts.md C2). -/
inductive Label where
  | byName (n : Name)
  | byAddress (a : Word)
  | byBoth (n : Name) (a : Word)
  deriving DecidableEq, Repr

/-- A parsed item of a program (R110, 90_conflicts.md C1). -/
inductive AsmLine where
  | label (l : Label)
  | instr (m : Mnemonic) (ops : List Operand)
  | data (bs : List Byte)
  deriving DecidableEq, Repr

/-- Assembling errors (R122): the first one ends the run and no image is produced. The first three stand for
errors the source does not name (R113, R116). -/
inductive AsmError where
  | noOverload
  | immediateRange
  | labelInNarrowField
  | addressTooLow
  | multipleLabels
  | duplicateLabel
  | undefinedLabel
  | memoryOverflow
  | labelAtEndOfFile
  deriving DecidableEq, Repr

/-- The mnemonic of a variant (R90, R112). -/
def mnemonicOf : Opcode → Mnemonic
  | .nop => .nop
  | .setRR => .set
  | .setRI => .set
  | .ldbRR => .ldb
  | .ldbRI => .ldb
  | .ldwRR => .ldw
  | .ldwRI => .ldw
  | .stbRR => .stb
  | .stbRI => .stb
  | .stbIR => .stb
  | .stbII => .stb
  | .stwRR => .stw
  | .stwRI => .stw
  | .stwIR => .stw
  | .stwII => .stw
  | .pshbR => .pshb
  | .pshbI => .pshb
  | .pshwR => .pshw
  | .pshwI => .pshw
  | .popbR => .popb
  | .popwR => .popw
  | .addRRR => .add
  | .addRRI => .add
  | .subRRR => .sub
  | .subRRI => .sub
  | .subRIR => .sub
  | .mulRRR => .mul
  | .mulRRI => .mul
  | .divsRRR => .divs
  | .divuRRR => .divu
  | .remsRRR => .rems
  | .remuRRR => .remu
  | .andRRR => .and
  | .andRRI => .and
  | .iorRRR => .ior
  | .iorRRI => .ior
  | .xorRRR => .xor
  | .xorRRI => .xor
  | .lshRRR => .lsh
  | .lshRRI => .lsh
  | .lshRIR => .lsh
  | .rshsRRR => .rshs
  | .rshsRRI => .rshs
  | .rshsRIR => .rshs
  | .rshuRRR => .rshu
  | .rshuRRI => .rshu
  | .rshuRIR => .rshu
  | .ceqRRR => .ceq
  | .ceqRRI => .ceq
  | .ceqRIR => .ceq
  | .cneRRR => .cne
  | .cneRRI => .cne
  | .cneRIR => .cne
  | .cltsRRR => .clts
  | .cltsRRI => .clts
  | .cltsRIR => .clts
  | .cltuRRR => .cltu
  | .cltuRRI => .cltu
  | .cltuRIR => .cltu
  | .cgesRRR => .cges
  | .cgesRRI => .cges
  | .cgesRIR => .cges
  | .cgeuRRR => .cgeu
  | .cgeuRRI => .cgeu
  | .cgeuRIR => .cgeu
  | .jmpR => .jmp
  | .jmpI => .jmp
  | .jmzRR => .jmz
  | .jmzRI => .jmz
  | .slp => .slp

/-- The operands of a variant, in assembly order (R90 column "form", R114). -/
def operandKinds : Opcode → List OperandKind
  | .nop => []
  | .setRR => [.reg, .reg]
  | .setRI => [.reg, .imm .bits16]
  | .ldbRR => [.reg, .reg]
  | .ldbRI => [.reg, .imm .bits16]
  | .ldwRR => [.reg, .reg]
  | .ldwRI => [.reg, .imm .bits16]
  | .stbRR => [.reg, .reg]
  | .stbRI => [.reg, .imm .bits8]
  | .stbIR => [.imm .bits16, .reg]
  | .stbII => [.imm .bits16, .imm .byteIn16]
  | .stwRR => [.reg, .reg]
  | .stwRI => [.reg, .imm .bits16]
  | .stwIR => [.imm .bits16, .reg]
  | .stwII => [.imm .bits16, .imm .bits16]
  | .pshbR => [.reg]
  | .pshbI => [.imm .bits8]
  | .pshwR => [.reg]
  | .pshwI => [.imm .bits16]
  | .popbR => [.reg]
  | .popwR => [.reg]
  | .addRRR => [.reg, .reg, .reg]
  | .addRRI => [.reg, .reg, .imm .bits16]
  | .subRRR => [.reg, .reg, .reg]
  | .subRRI => [.reg, .reg, .imm .bits16]
  | .subRIR => [.reg, .imm .bits16, .reg]
  | .mulRRR => [.reg, .reg, .reg]
  | .mulRRI => [.reg, .reg, .imm .bits16]
  | .divsRRR => [.reg, .reg, .reg]
  | .divuRRR => [.reg, .reg, .reg]
  | .remsRRR => [.reg, .reg, .reg]
  | .remuRRR => [.reg, .reg, .reg]
  | .andRRR => [.reg, .reg, .reg]
  | .andRRI => [.reg, .reg, .imm .bits16]
  | .iorRRR => [.reg, .reg, .reg]
  | .iorRRI => [.reg, .reg, .imm .bits16]
  | .xorRRR => [.reg, .reg, .reg]
  | .xorRRI => [.reg, .reg, .imm .bits16]
  | .lshRRR => [.reg, .reg, .reg]
  | .lshRRI => [.reg, .reg, .imm .bits4]
  | .lshRIR => [.reg, .imm .bits16, .reg]
  | .rshsRRR => [.reg, .reg, .reg]
  | .rshsRRI => [.reg, .reg, .imm .bits4]
  | .rshsRIR => [.reg, .imm .bits16, .reg]
  | .rshuRRR => [.reg, .reg, .reg]
  | .rshuRRI => [.reg, .reg, .imm .bits4]
  | .rshuRIR => [.reg, .imm .bits16, .reg]
  | .ceqRRR => [.reg, .reg, .reg]
  | .ceqRRI => [.reg, .reg, .imm .bits16]
  | .ceqRIR => [.reg, .imm .bits16, .reg]
  | .cneRRR => [.reg, .reg, .reg]
  | .cneRRI => [.reg, .reg, .imm .bits16]
  | .cneRIR => [.reg, .imm .bits16, .reg]
  | .cltsRRR => [.reg, .reg, .reg]
  | .cltsRRI => [.reg, .reg, .imm .bits16]
  | .cltsRIR => [.reg, .imm .bits16, .reg]
  | .cltuRRR => [.reg, .reg, .reg]
  | .cltuRRI => [.reg, .reg, .imm .bits16]
  | .cltuRIR => [.reg, .imm .bits16, .reg]
  | .cgesRRR => [.reg, .reg, .reg]
  | .cgesRRI => [.reg, .reg, .imm .bits16]
  | .cgesRIR => [.reg, .imm .bits16, .reg]
  | .cgeuRRR => [.reg, .reg, .reg]
  | .cgeuRRI => [.reg, .reg, .imm .bits16]
  | .cgeuRIR => [.reg, .imm .bits16, .reg]
  | .jmpR => [.reg]
  | .jmpI => [.imm .bits16]
  | .jmzRR => [.reg, .reg]
  | .jmzRI => [.reg, .imm .bits16]
  | .slp => []

/-- An operand is of the kind a position expects; a label stands wherever an immediate does (R113). -/
def kindMatches : OperandKind → Operand → Bool
  | .reg, .reg _ => true
  | .imm _, .imm _ => true
  | .imm _, .label _ => true
  | .reg, .imm _ => false
  | .reg, .label _ => false
  | .imm _, .reg _ => false

/-- Arity and every position match (R113). -/
def kindsMatch : List OperandKind → List Operand → Bool
  | [], [] => true
  | k :: ks, o :: os => kindMatches k o && kindsMatch ks os
  | [], _ :: _ => false
  | _ :: _, [] => false

/-- The variants of a mnemonic, in the table's order (R113). -/
def overloads (m : Mnemonic) : List Opcode := opcodeTable.filter (fun v => mnemonicOf v == m)

/-- The first overload whose operand kinds match exactly (R113). -/
def selectOverload (m : Mnemonic) (ops : List Operand) : Option Opcode :=
  (overloads m).find? (fun v => kindsMatch (operandKinds v) ops)

/-- The values a field accepts (R116, D21). -/
def inRange : ImmField → Int → Bool
  | .bits4, v => decide (0 ≤ v ∧ v ≤ 15)
  | .bits8, v => decide (-128 ≤ v ∧ v ≤ 255)
  | .byteIn16, v => decide (-128 ≤ v ∧ v ≤ 255)
  | .bits16, v => decide (-32768 ≤ v ∧ v ≤ 65535)

/-- What a field stores of an accepted value: `u16(value)`, or `value mod 256` in an 8-bit field (R115). -/
def fieldValue : ImmField → Int → Word
  | .bits4, v => u16 v
  | .bits8, v => u16 (v % 256)
  | .byteIn16, v => u16 v
  | .bits16, v => u16 v

/-- A field is 16 bits wide, so that a label's address can be patched into it (R113, D21). -/
def acceptsLabel : ImmField → Bool
  | .bits4 => false
  | .bits8 => false
  | .byteIn16 => true
  | .bits16 => true

/-- An immediate of an instruction: its field value, and the label to be patched in later, whose placeholder
is 0x0000 (R115). -/
structure Imm where
  value : Word
  ref   : Option Name
  deriving DecidableEq, Repr

/-- The register operands, in order: regA, regB, regC (R85). -/
def regOperands : List Operand → List Reg
  | [] => []
  | .reg r :: os => r :: regOperands os
  | .imm _ :: os => regOperands os
  | .label _ :: os => regOperands os

/-- The immediate operands, in order: immA, immB (R85, R115, R116). -/
def immOperands : List OperandKind → List Operand → Except AsmError (List Imm)
  | .imm f :: ks, .imm v :: os =>
    if inRange f v then
      match immOperands ks os with
      | .ok l => .ok (⟨fieldValue f v, none⟩ :: l)
      | .error e => .error e
    else .error .immediateRange
  | .imm f :: ks, .label n :: os =>
    if acceptsLabel f then
      match immOperands ks os with
      | .ok l => .ok (⟨0, some n⟩ :: l)
      | .error e => .error e
    else .error .labelInNarrowField
  | _ :: ks, _ :: os => immOperands ks os
  | _, _ => .ok []

/-- The field values of the operands (R85). -/
def operandFields (regs : List Reg) (imms : List Imm) : Fields where
  a := regs.getD 0 .nl
  b := regs.getD 1 .nl
  c := regs.getD 2 .nl
  immA := (imms.getD 0 ⟨0, none⟩).value
  immB := (imms.getD 1 ⟨0, none⟩).value

/-- A use of a label waiting for its address: where the low byte of the field stands, and the name (R115). -/
structure Reference where
  patch : Nat
  name  : Name
  deriving DecidableEq, Repr

/-- The references of an instruction whose first byte is at `base`: immA's field begins at byte 1, immB's at
byte 3 (R78, R80, R82, R83). -/
def referencesFrom (base : Nat) : Nat → List Imm → List Reference
  | _, [] => []
  | k, ⟨_, some n⟩ :: l => ⟨base + k, n⟩ :: referencesFrom base (k + 2) l
  | k, ⟨_, none⟩ :: l => referencesFrom base (k + 2) l

/-- The instruction that a mnemonic with operands stands for, and its immediates (R113, R115). -/
def assembleInstr (m : Mnemonic) (ops : List Operand) : Except AsmError (Instr × List Imm) :=
  match selectOverload m ops with
  | none => .error .noOverload
  | some v =>
    match immOperands (operandKinds v) ops with
    | .error e => .error e
    | .ok imms => .ok (v.build (operandFields (regOperands ops) imms), imms)

/-- What the assembler holds between two lines. -/
structure AsmState where
  /-- the current write address (R117); 65,536 where the image is full -/
  cursor  : Nat := 0
  /-- the image so far; a byte not written is `IMAGE_FILL` (20_memory.md R51) -/
  image   : Memory := []
  /-- the names already bound (R118) -/
  labels  : List (Name × Word) := []
  /-- the references not yet patched (R115), oldest first -/
  refs    : List Reference := []
  /-- a label that waits for the next item: its name, where it has one (R118) -/
  pending : Option (Option Name) := none
  deriving DecidableEq, Repr

/-- The name of a label, where it has one. -/
def Label.name? : Label → Option Name
  | .byName n => some n
  | .byAddress _ => none
  | .byBoth n _ => some n

/-- The address of a label, where it has one. -/
def Label.addr? : Label → Option Word
  | .byName _ => none
  | .byAddress a => some a
  | .byBoth _ a => some a

/-- The address a name is bound to, found by its characters (R118, R121). -/
def lookup (labels : List (Name × Word)) (n : Name) : Option Word :=
  match labels with
  | [] => none
  | (m, a) :: rest => if m = n then some a else lookup rest n

/-- A label line (R118, R119; 90_conflicts.md C6 for two labels of one name in a row; log 19 for the order of
the checks): it waits for the next item, and an address moves the cursor forward. -/
def labelLine (st : AsmState) (l : Label) : Except AsmError AsmState :=
  match st.pending with
  | some waiting => if waiting.isSome && waiting == l.name? then .error .duplicateLabel else .error .multipleLabels
  | none =>
    if (l.name?.bind (lookup st.labels)).isSome then .error .duplicateLabel
    else
      match l.addr? with
      | none => .ok { st with pending := some l.name? }
      | some a =>
        if a.toNat < st.cursor then .error .addressTooLow
        else .ok { st with cursor := a.toNat, pending := some l.name? }

/-- The names bound after an item at the cursor: the waiting name, if any, to the cursor (R118). -/
def bindPending (st : AsmState) : List (Name × Word) :=
  match st.pending with
  | some (some n) => (n, BitVec.ofNat 16 st.cursor) :: st.labels
  | some none => st.labels
  | none => st.labels

/-- An item of one or more bytes, written at the cursor (R117). -/
def itemLine (st : AsmState) (bs : List Byte) (imms : List Imm) : Except AsmError AsmState :=
  if Config.memBytes < st.cursor + bs.length then .error .memoryOverflow
  else .ok
    { cursor := st.cursor + bs.length
      image := st.image.setBytes st.cursor bs
      labels := bindPending st
      refs := st.refs ++ referencesFrom st.cursor 1 imms
      pending := none }

/-- One line. DESIGN CHOICE: of two errors of one instruction, the missing overload is reported first, then the
leftmost operand's error, then the memory overflow (log 19); unsafe for a claim about which error is reported. -/
def assembleLine (st : AsmState) : AsmLine → Except AsmError AsmState
  | .label l => labelLine st l
  | .data bs => itemLine st bs []
  | .instr m ops =>
    match assembleInstr m ops with
    | .error e => .error e
    | .ok (i, imms) => itemLine st (encode i) imms

/-- All lines, the first error winning (R122). -/
def assembleLines (st : AsmState) : List AsmLine → Except AsmError AsmState
  | [] => .ok st
  | l :: ls =>
    match assembleLine st l with
    | .error e => .error e
    | .ok st' => assembleLines st' ls

/-- Back-patching (R121): the address of each referenced label, two bytes, low byte first. -/
def patchAll (labels : List (Name × Word)) (image : Memory) : List Reference → Except AsmError Memory
  | [] => .ok image
  | r :: rs =>
    match lookup labels r.name with
    | none => .error .undefinedLabel
    | some a => patchAll labels (image.setBytes r.patch [lowByte a, highByte a]) rs

/-- The image of a program (R117 to R123). -/
def assemble (ls : List AsmLine) : Except AsmError Memory :=
  match assembleLines {} ls with
  | .error e => .error e
  | .ok st => if st.pending.isSome then .error .labelAtEndOfFile else patchAll st.labels st.image st.refs

/-- The operands, in assembly order, that an instruction is written with (R114). -/
def operandsOf : Instr → List Operand
  | .nop => []
  | .setRR d src => [.reg d, .reg src]
  | .setRI d v => [.reg d, .imm (unsigned16 v)]
  | .ldbRR d addr => [.reg d, .reg addr]
  | .ldbRI d addr => [.reg d, .imm (unsigned16 addr)]
  | .ldwRR d addr => [.reg d, .reg addr]
  | .ldwRI d addr => [.reg d, .imm (unsigned16 addr)]
  | .stbRR addr src => [.reg addr, .reg src]
  | .stbRI addr v => [.reg addr, .imm (unsigned16 v)]
  | .stbIR addr src => [.imm (unsigned16 addr), .reg src]
  | .stbII addr v => [.imm (unsigned16 addr), .imm (unsigned16 v)]
  | .stwRR addr src => [.reg addr, .reg src]
  | .stwRI addr v => [.reg addr, .imm (unsigned16 v)]
  | .stwIR addr src => [.imm (unsigned16 addr), .reg src]
  | .stwII addr v => [.imm (unsigned16 addr), .imm (unsigned16 v)]
  | .pshbR src => [.reg src]
  | .pshbI v => [.imm (unsigned16 v)]
  | .pshwR src => [.reg src]
  | .pshwI v => [.imm (unsigned16 v)]
  | .popbR d => [.reg d]
  | .popwR d => [.reg d]
  | .addRRR d s1 s2 => [.reg d, .reg s1, .reg s2]
  | .addRRI d s1 v => [.reg d, .reg s1, .imm (unsigned16 v)]
  | .subRRR d s1 s2 => [.reg d, .reg s1, .reg s2]
  | .subRRI d s1 v => [.reg d, .reg s1, .imm (unsigned16 v)]
  | .subRIR d v s2 => [.reg d, .imm (unsigned16 v), .reg s2]
  | .mulRRR d s1 s2 => [.reg d, .reg s1, .reg s2]
  | .mulRRI d s1 v => [.reg d, .reg s1, .imm (unsigned16 v)]
  | .divsRRR d s1 s2 => [.reg d, .reg s1, .reg s2]
  | .divuRRR d s1 s2 => [.reg d, .reg s1, .reg s2]
  | .remsRRR d s1 s2 => [.reg d, .reg s1, .reg s2]
  | .remuRRR d s1 s2 => [.reg d, .reg s1, .reg s2]
  | .andRRR d s1 s2 => [.reg d, .reg s1, .reg s2]
  | .andRRI d s1 v => [.reg d, .reg s1, .imm (unsigned16 v)]
  | .iorRRR d s1 s2 => [.reg d, .reg s1, .reg s2]
  | .iorRRI d s1 v => [.reg d, .reg s1, .imm (unsigned16 v)]
  | .xorRRR d s1 s2 => [.reg d, .reg s1, .reg s2]
  | .xorRRI d s1 v => [.reg d, .reg s1, .imm (unsigned16 v)]
  | .lshRRR d src n => [.reg d, .reg src, .reg n]
  | .lshRRI d src n => [.reg d, .reg src, .imm (unsigned16 n)]
  | .lshRIR d v n => [.reg d, .imm (unsigned16 v), .reg n]
  | .rshsRRR d src n => [.reg d, .reg src, .reg n]
  | .rshsRRI d src n => [.reg d, .reg src, .imm (unsigned16 n)]
  | .rshsRIR d v n => [.reg d, .imm (unsigned16 v), .reg n]
  | .rshuRRR d src n => [.reg d, .reg src, .reg n]
  | .rshuRRI d src n => [.reg d, .reg src, .imm (unsigned16 n)]
  | .rshuRIR d v n => [.reg d, .imm (unsigned16 v), .reg n]
  | .ceqRRR d s1 s2 => [.reg d, .reg s1, .reg s2]
  | .ceqRRI d s1 v => [.reg d, .reg s1, .imm (unsigned16 v)]
  | .ceqRIR d v s2 => [.reg d, .imm (unsigned16 v), .reg s2]
  | .cneRRR d s1 s2 => [.reg d, .reg s1, .reg s2]
  | .cneRRI d s1 v => [.reg d, .reg s1, .imm (unsigned16 v)]
  | .cneRIR d v s2 => [.reg d, .imm (unsigned16 v), .reg s2]
  | .cltsRRR d s1 s2 => [.reg d, .reg s1, .reg s2]
  | .cltsRRI d s1 v => [.reg d, .reg s1, .imm (unsigned16 v)]
  | .cltsRIR d v s2 => [.reg d, .imm (unsigned16 v), .reg s2]
  | .cltuRRR d s1 s2 => [.reg d, .reg s1, .reg s2]
  | .cltuRRI d s1 v => [.reg d, .reg s1, .imm (unsigned16 v)]
  | .cltuRIR d v s2 => [.reg d, .imm (unsigned16 v), .reg s2]
  | .cgesRRR d s1 s2 => [.reg d, .reg s1, .reg s2]
  | .cgesRRI d s1 v => [.reg d, .reg s1, .imm (unsigned16 v)]
  | .cgesRIR d v s2 => [.reg d, .imm (unsigned16 v), .reg s2]
  | .cgeuRRR d s1 s2 => [.reg d, .reg s1, .reg s2]
  | .cgeuRRI d s1 v => [.reg d, .reg s1, .imm (unsigned16 v)]
  | .cgeuRIR d v s2 => [.reg d, .imm (unsigned16 v), .reg s2]
  | .jmpR target => [.reg target]
  | .jmpI target => [.imm (unsigned16 target)]
  | .jmzRR cond target => [.reg cond, .reg target]
  | .jmzRI cond target => [.reg cond, .imm (unsigned16 target)]
  | .slp => []

/-- The line an instruction is written as: its mnemonic and its operands, immediates as numbers (R114). -/
def lineOf (i : Instr) : AsmLine := .instr (mnemonicOf i.opcode) (operandsOf i)

end Sys2Proof.Assembler
end

