-- ==== Sys2Proof/Machine/Driver.lean ====
section
/-! DEFINITION. The driver's side of the core: load, and the reads and writes of memory between steps
(20_memory.md R51, R52, R55; 70_reset_and_hazards.md R260, R264, R265). These are inputs of the machine; no
step performs them (log 4). -/

namespace Sys2Proof.Machine

/-- `load(image)`: reset (R260, R264): all registers 0, memory the image, given in canonical form. -/
def Driver.load (image : Memory) : State := { State.reset with mem := image }

/-- The image whose bytes from address 0 are `bs`, the bytes after them `IMAGE_FILL` (R51). -/
def Driver.imageOfBytes (bs : List Byte) : Memory := Memory.setBytes [] 0 bs

/-- `peek(a)` between steps (R264). -/
def Driver.peek (s : State) (a : Word) : Byte := s.readByte a

/-- `poke(a, byte)` between steps (R264). -/
def Driver.poke (s : State) (a : Word) (b : Byte) : State := s.writeByte a b

/-- One write by the driver. -/
structure Driver.Poke where
  addr  : Word
  value : Byte
  deriving DecidableEq, Repr

/-- The write goes to an address the driver may write: by default 0xE000 and 0xE001 (R55, D23). -/
def Driver.admitted (p : Driver.Poke) : Bool := params.hostWrites.contains p.addr

/-- Several writes, in order. -/
def Driver.pokeAll : List Driver.Poke → State → State
  | [], s => s
  | p :: ps, s => Driver.pokeAll ps (Driver.poke s p.addr p.value)

/-- One tick: the driver's writes, any number of them, then one step (R265). -/
def Driver.tick (ps : List Driver.Poke) (s : State) : Result := step (Driver.pokeAll ps s)

/-- One tick for each list of writes, stopping where a step gives no next state (R265). -/
def Driver.run : List (List Driver.Poke) → State → Result
  | [], s => .next s
  | ps :: rest, s =>
    match Driver.tick ps s with
    | .next t => Driver.run rest t
    | .fault r => .fault r
    | .refused r => .refused r

/-- What the driver reads after a step: by default the bytes at 0xF000 to 0xF003 (R52, R265). -/
def Driver.observe (s : State) : List Byte := params.hostReads.map (Driver.peek s)

/-- The observable behaviour of a run: the driver's reading after each step (R265). -/
def Driver.behaviour : List (List Driver.Poke) → State → List (List Byte)
  | [], _ => []
  | ps :: rest, s =>
    match Driver.tick ps s with
    | .next t => Driver.observe t :: Driver.behaviour rest t
    | .fault _ => []
    | .refused _ => []

end Sys2Proof.Machine
end

