-- ==== Sys2Proof/Safety.lean ====
section
/-! DEFINITION. The terms in which statements about the machine are written: what of a state is unchanged, what
one register write or one store amounts to, when a run has terminated, and what every step keeps. -/

namespace Sys2Proof.Machine

/-- Every register reads the same. -/
def SameRegs (s t : State) : Prop := ∀ r, t.readReg r = s.readReg r

/-- Every byte of memory reads the same. -/
def SameMemory (s t : State) : Prop := ∀ a, t.readByte a = s.readByte a

/-- `t` is `s` with the register `d` holding `v` (with nothing changed where `d` is NL: its writes are
discarded, 10_state.md R12); every other register and every byte of memory is unchanged. -/
def WritesRegOnly (d : Reg) (v : Word) (s t : State) : Prop :=
  (∀ r, t.readReg r = if r = .nl then 0 else if r = d then v else s.readReg r) ∧ SameMemory s t

/-- `t` is `s` with the byte at `addr` holding `b`; every other byte and every register is unchanged. -/
def StoresByteOnly (addr : Word) (b : Byte) (s t : State) : Prop :=
  SameRegs s t ∧ ∀ a, t.readByte a = if a = addr then b else s.readByte a

/-- `t` is `s` with the word `v` at `addr` and the address after it (modulo 65,536), low byte first; every
other byte and every register is unchanged. -/
def StoresWordOnly (addr v : Word) (s t : State) : Prop :=
  SameRegs s t ∧
    ∀ a, t.readByte a =
      if a = addr then lowByte v else if a = addrAdd addr 1 then highByte v else s.readByte a

/-- The general registers X0 to X11 (10_state.md R19). -/
def isGeneral : Reg → Bool
  | .nl | .ip | .sp | .ac => false
  | .x0 | .x1 | .x2 | .x3 | .x4 | .x5 | .x6 | .x7 | .x8 | .x9 | .x10 | .x11 => true

/-- The registers that the register fields of an instruction name; NL stands for a field it does not have. -/
def namedRegs (i : Instr) : List Reg := [i.fields.a, i.fields.b, i.fields.c]

/-- The pad nibble of a layout is 0 in the bytes after the opcode byte, or it has none (30_encoding.md R72). -/
def padIsZero (l : Layout) (b : Nat → Byte) : Prop :=
  match l with
  | .regA => (b 1).extractLsb' 0 4 = 0
  | .regARegBRegC => (b 1).extractLsb' 0 4 = 0
  | .regAImmA8 => (b 2).extractLsb' 0 4 = 0
  | .regAImmA16 => (b 3).extractLsb' 0 4 = 0
  | .regARegBImmA4 => (b 1).extractLsb' 0 4 = 0
  | .none | .regARegB | .immA8 | .immA16 | .regARegBImmA16 | .immA16ImmB16 => True

/-- The registers whose value the meaning of an instruction may change: its destination, and the register the
instruction moves or writes by itself: SP for a push or a pop, AC and IP for JMP, IP for JMZ (10_state.md R16).
The IP advance of the step comes before the meaning. -/
def writtenRegs : Instr → List Reg
  | .setRR d _ | .setRI d _ | .ldbRR d _ | .ldbRI d _ | .ldwRR d _ | .ldwRI d _ | .addRRR d _ _
  | .addRRI d _ _ | .subRRR d _ _ | .subRRI d _ _ | .subRIR d _ _ | .mulRRR d _ _ | .mulRRI d _ _
  | .divsRRR d _ _ | .divuRRR d _ _ | .remsRRR d _ _ | .remuRRR d _ _ | .andRRR d _ _ | .andRRI d _ _
  | .iorRRR d _ _ | .iorRRI d _ _ | .xorRRR d _ _ | .xorRRI d _ _ | .lshRRR d _ _ | .lshRRI d _ _
  | .lshRIR d _ _ | .rshsRRR d _ _ | .rshsRRI d _ _ | .rshsRIR d _ _ | .rshuRRR d _ _ | .rshuRRI d _ _
  | .rshuRIR d _ _ | .ceqRRR d _ _ | .ceqRRI d _ _ | .ceqRIR d _ _ | .cneRRR d _ _ | .cneRRI d _ _
  | .cneRIR d _ _ | .cltsRRR d _ _ | .cltsRRI d _ _ | .cltsRIR d _ _ | .cltuRRR d _ _ | .cltuRRI d _ _
  | .cltuRIR d _ _ | .cgesRRR d _ _ | .cgesRRI d _ _ | .cgesRIR d _ _ | .cgeuRRR d _ _ | .cgeuRRI d _ _
  | .cgeuRIR d _ _ => [d]
  | .popbR d | .popwR d => [.sp, d]
  | .pshbR _ | .pshbI _ | .pshwR _ | .pshwI _ => [.sp]
  | .jmpR _ | .jmpI _ => [.ac, .ip]
  | .jmzRR _ _ | .jmzRI _ _ => [.ip]
  | .stbRR _ _ | .stbRI _ _ | .stbIR _ _ | .stbII _ _ | .stwRR _ _ | .stwRI _ _ | .stwIR _ _ | .stwII _ _
  | .nop | .slp => []

/-- What `MemWrite(a, 1, v)` stores: the byte and its address (20_memory.md R44). -/
def byteCell (a v : Word) : List (Word × Byte) := [(a, lowByte v)]

/-- What `MemWrite(a, 2, v)` stores: two bytes, each with its address (R45). -/
def wordCells (a v : Word) : List (Word × Byte) := [(a, lowByte v), (addrAdd a 1, highByte v)]

/-- The bytes an instruction stores, each with its address, computed from the state its meaning runs on, as the
meaning computes them (20_memory.md R44, R45, R48; 41_stack.md R150). -/
def storedCells (i : Instr) (s : State) : List (Word × Byte) :=
  match i with
  | .stbRR addr src => byteCell (s.readReg addr) (s.readReg src)
  | .stbRI addr v => byteCell (s.readReg addr) v
  | .stbIR addr src => byteCell addr (s.readReg src)
  | .stbII addr v => byteCell addr v
  | .stwRR addr src => wordCells (s.readReg addr) (s.readReg src)
  | .stwRI addr v => wordCells (s.readReg addr) v
  | .stwIR addr src => wordCells addr (s.readReg src)
  | .stwII addr v => wordCells addr v
  | .pshbR src => byteCell (addrAdd (s.readReg .sp) (-1)) (s.readReg src)
  | .pshbI v => byteCell (addrAdd (s.readReg .sp) (-1)) v
  | .pshwR src => wordCells (addrAdd (s.readReg .sp) (-2)) (s.readReg src)
  | .pshwI v => wordCells (addrAdd (s.readReg .sp) (-2)) v
  | .setRR _ _ | .setRI _ _ | .ldbRR _ _ | .ldbRI _ _ | .ldwRR _ _ | .ldwRI _ _ | .addRRR _ _ _
  | .addRRI _ _ _ | .subRRR _ _ _ | .subRRI _ _ _ | .subRIR _ _ _ | .mulRRR _ _ _ | .mulRRI _ _ _
  | .divsRRR _ _ _ | .divuRRR _ _ _ | .remsRRR _ _ _ | .remuRRR _ _ _ | .andRRR _ _ _ | .andRRI _ _ _
  | .iorRRR _ _ _ | .iorRRI _ _ _ | .xorRRR _ _ _ | .xorRRI _ _ _ | .lshRRR _ _ _ | .lshRRI _ _ _
  | .lshRIR _ _ _ | .rshsRRR _ _ _ | .rshsRRI _ _ _ | .rshsRIR _ _ _ | .rshuRRR _ _ _ | .rshuRRI _ _ _
  | .rshuRIR _ _ _ | .ceqRRR _ _ _ | .ceqRRI _ _ _ | .ceqRIR _ _ _ | .cneRRR _ _ _ | .cneRRI _ _ _
  | .cneRIR _ _ _ | .cltsRRR _ _ _ | .cltsRRI _ _ _ | .cltsRIR _ _ _ | .cltuRRR _ _ _ | .cltuRRI _ _ _
  | .cltuRIR _ _ _ | .cgesRRR _ _ _ | .cgesRRI _ _ _ | .cgesRIR _ _ _ | .cgeuRRR _ _ _ | .cgeuRRI _ _ _
  | .cgeuRIR _ _ _ | .popbR _ | .popwR _ | .jmpR _ | .jmpI _ | .jmzRR _ _ | .jmzRI _ _ | .nop | .slp => []

/-- The addresses of the bytes an instruction stores to. -/
def storedAddrs (i : Instr) (s : State) : List Word := (storedCells i s).map Prod.fst

/-- A run has terminated: a step leaves the whole state unchanged (70_reset_and_hazards.md R266, D18). -/
def Terminated (s : State) : Prop := step s = .next s

/-- What every step keeps: memory stands in its canonical form, so all its addresses are among the 65,536
(10_state.md R24, 20_memory.md R41). -/
def MemoryCanonical (s : State) : Prop := s.mem.wf

/-- No number of steps ends in a fault or a refusal (60_exceptions.md R240). -/
def NeverStops (s : State) : Prop := ∀ n, ∃ t, core.run n s = .next t

end Sys2Proof.Machine
end

