-- ==== Sys2Proof/Certificates/Slice0/Obligations.lean ====
section
/-! DEFINITION. The statements for the provers, from the rules of spec/ in the order: step and encoding, whole
machine, memory, data movement, stack, arithmetic, bitwise and shifts, comparisons, control, reset and driver,
assembler. Each rests on the spec's numbering of opcodes and registers where it names a byte (D2, D3; log 5).
`exec` runs on the state whose IP is already advanced (10_state.md R14), so "every other register" of a frame
includes IP. The hardware has no flag, status, special or exception register (10_state.md R16, R21), so a
frame speaks of the 16 registers and of every byte of memory. -/

open Sys2Proof Sys2Proof.Machine

/-! ### The step and the encoding -/

/-- 30_encoding.md R100, 00_scope.md R8: when the bytes from IP on decode to `i`, the step is `exec i` on the
state whose IP is past the instruction, and `i` is well formed. -/
def Obligations.StepRunsDecodedInstruction : Prop :=
  ∀ (s : State) (i : Instr) (rest : List Byte),
    decode [s.fetchByte 0, s.fetchByte 1, s.fetchByte 2, s.fetchByte 3, s.fetchByte 4] = .ok (i, rest) →
      i.wf = true ∧ step s = exec i (s.writeReg .ip (addrAdd (s.readReg .ip) i.length))

/-- 30_encoding.md R90 with R73 to R83: one word for each of the 70 rows of the table, written out from its
encoding, decodes to the instruction it stands for (examples of the instruction rules; decisions D1 to D5, D7;
log 5, log 6, log 7). -/
def Obligations.SampleWordsDecode : Prop :=
  decode [0x00] = .ok (.nop, []) ∧
  decode [0x01, 0x45] = .ok (.setRR .x0 .x1, []) ∧
  decode [0x02, 0x34, 0x12, 0x40] = .ok (.setRI .x0 0x1234, []) ∧
  decode [0x03, 0x45] = .ok (.ldbRR .x0 .x1, []) ∧
  decode [0x04, 0x00, 0xE0, 0x40] = .ok (.ldbRI .x0 0xE000, []) ∧
  decode [0x05, 0x45] = .ok (.ldwRR .x0 .x1, []) ∧
  decode [0x06, 0x01, 0x20, 0x60] = .ok (.ldwRI .x2 0x2001, []) ∧
  decode [0x07, 0x45] = .ok (.stbRR .x0 .x1, []) ∧
  decode [0x08, 0x80, 0x40] = .ok (.stbRI .x0 0x0080, []) ∧
  decode [0x09, 0x00, 0xF0, 0x70] = .ok (.stbIR 0xF000 .x3, []) ∧
  decode [0x0A, 0x03, 0xF0, 0x40, 0x00] = .ok (.stbII 0xF003 0x0040, []) ∧
  decode [0x0B, 0x45] = .ok (.stwRR .x0 .x1, []) ∧
  decode [0x0C, 0x34, 0x12, 0x40] = .ok (.stwRI .x0 0x1234, []) ∧
  decode [0x0D, 0x00, 0x40, 0x90] = .ok (.stwIR 0x4000 .x5, []) ∧
  decode [0x0E, 0xFF, 0xFF, 0x5A, 0xA5] = .ok (.stwII 0xFFFF 0xA55A, []) ∧
  decode [0x0F, 0x40] = .ok (.pshbR .x0, []) ∧
  decode [0x10, 0x7F] = .ok (.pshbI 0x007F, []) ∧
  decode [0x11, 0x40] = .ok (.pshwR .x0, []) ∧
  decode [0x12, 0xEF, 0xBE] = .ok (.pshwI 0xBEEF, []) ∧
  decode [0x13, 0x50] = .ok (.popbR .x1, []) ∧
  decode [0x14, 0x50] = .ok (.popwR .x1, []) ∧
  decode [0x15, 0x60, 0x45] = .ok (.addRRR .x0 .x1 .x2, []) ∧
  decode [0x16, 0x01, 0x00, 0x45] = .ok (.addRRI .x0 .x1 0x0001, []) ∧
  decode [0x17, 0x60, 0x45] = .ok (.subRRR .x0 .x1 .x2, []) ∧
  decode [0x18, 0x01, 0x00, 0x45] = .ok (.subRRI .x0 .x1 0x0001, []) ∧
  decode [0x19, 0x64, 0x00, 0x45] = .ok (.subRIR .x0 0x0064 .x1, []) ∧
  decode [0x1A, 0x60, 0x45] = .ok (.mulRRR .x0 .x1 .x2, []) ∧
  decode [0x1B, 0x10, 0x00, 0x45] = .ok (.mulRRI .x0 .x1 0x0010, []) ∧
  decode [0x1C, 0x50, 0x64] = .ok (.divsRRR .x2 .x0 .x1, []) ∧
  decode [0x1D, 0x60, 0x45] = .ok (.divuRRR .x0 .x1 .x2, []) ∧
  decode [0x1E, 0x60, 0x45] = .ok (.remsRRR .x0 .x1 .x2, []) ∧
  decode [0x1F, 0x60, 0x45] = .ok (.remuRRR .x0 .x1 .x2, []) ∧
  decode [0x20, 0x60, 0x45] = .ok (.andRRR .x0 .x1 .x2, []) ∧
  decode [0x21, 0xFF, 0x00, 0x45] = .ok (.andRRI .x0 .x1 0x00FF, []) ∧
  decode [0x22, 0x60, 0x45] = .ok (.iorRRR .x0 .x1 .x2, []) ∧
  decode [0x23, 0x34, 0x00, 0x45] = .ok (.iorRRI .x0 .x1 0x0034, []) ∧
  decode [0x24, 0x60, 0x45] = .ok (.xorRRR .x0 .x1 .x2, []) ∧
  decode [0x25, 0xFF, 0xFF, 0x45] = .ok (.xorRRI .x0 .x1 0xFFFF, []) ∧
  decode [0x26, 0x60, 0x45] = .ok (.lshRRR .x0 .x1 .x2, []) ∧
  decode [0x27, 0xF0, 0x45] = .ok (.lshRRI .x0 .x1 15, []) ∧
  decode [0x28, 0x00, 0x80, 0x45] = .ok (.lshRIR .x0 0x8000 .x1, []) ∧
  decode [0x29, 0x60, 0x45] = .ok (.rshsRRR .x0 .x1 .x2, []) ∧
  decode [0x2A, 0x20, 0xC4] = .ok (.rshsRRI .x8 .x0 2, []) ∧
  decode [0x2B, 0x00, 0x80, 0x45] = .ok (.rshsRIR .x0 0x8000 .x1, []) ∧
  decode [0x2C, 0x60, 0x45] = .ok (.rshuRRR .x0 .x1 .x2, []) ∧
  decode [0x2D, 0x80, 0x45] = .ok (.rshuRRI .x0 .x1 8, []) ∧
  decode [0x2E, 0x00, 0x80, 0x45] = .ok (.rshuRIR .x0 0x8000 .x1, []) ∧
  decode [0x2F, 0x60, 0x45] = .ok (.ceqRRR .x0 .x1 .x2, []) ∧
  decode [0x30, 0x01, 0x00, 0x45] = .ok (.ceqRRI .x0 .x1 0x0001, []) ∧
  decode [0x31, 0x01, 0x00, 0x45] = .ok (.ceqRIR .x0 0x0001 .x1, []) ∧
  decode [0x32, 0x60, 0x45] = .ok (.cneRRR .x0 .x1 .x2, []) ∧
  decode [0x33, 0x01, 0x00, 0x45] = .ok (.cneRRI .x0 .x1 0x0001, []) ∧
  decode [0x34, 0x01, 0x00, 0x45] = .ok (.cneRIR .x0 0x0001 .x1, []) ∧
  decode [0x35, 0x60, 0x45] = .ok (.cltsRRR .x0 .x1 .x2, []) ∧
  decode [0x36, 0x01, 0x00, 0x45] = .ok (.cltsRRI .x0 .x1 0x0001, []) ∧
  decode [0x37, 0xFF, 0x7F, 0x45] = .ok (.cltsRIR .x0 0x7FFF .x1, []) ∧
  decode [0x38, 0x60, 0x45] = .ok (.cltuRRR .x0 .x1 .x2, []) ∧
  decode [0x39, 0x01, 0x00, 0x45] = .ok (.cltuRRI .x0 .x1 0x0001, []) ∧
  decode [0x3A, 0x01, 0x00, 0x45] = .ok (.cltuRIR .x0 0x0001 .x1, []) ∧
  decode [0x3B, 0x60, 0x45] = .ok (.cgesRRR .x0 .x1 .x2, []) ∧
  decode [0x3C, 0x01, 0x00, 0x45] = .ok (.cgesRRI .x0 .x1 0x0001, []) ∧
  decode [0x3D, 0x01, 0x00, 0x45] = .ok (.cgesRIR .x0 0x0001 .x1, []) ∧
  decode [0x3E, 0x60, 0x45] = .ok (.cgeuRRR .x0 .x1 .x2, []) ∧
  decode [0x3F, 0x01, 0x00, 0x45] = .ok (.cgeuRRI .x0 .x1 0x0001, []) ∧
  decode [0x40, 0x01, 0x00, 0x45] = .ok (.cgeuRIR .x0 0x0001 .x1, []) ∧
  decode [0x41, 0x40] = .ok (.jmpR .x0, []) ∧
  decode [0x42, 0x40, 0x00] = .ok (.jmpI 0x0040, []) ∧
  decode [0x43, 0x45] = .ok (.jmzRR .x0 .x1, []) ∧
  decode [0x44, 0x00, 0x02, 0x40] = .ok (.jmzRI .x0 0x0200, []) ∧
  decode [0x45] = .ok (.slp, [])

/-- 30_encoding.md R86: decoding an encoded instruction with legal operands gives it back, whatever follows it;
its encoding has the layout's length; and encoding what was decoded gives the bytes back exactly when the
opcode byte is in the table and the pad is 0. -/
def Obligations.EncodeAndDecodeAreInverse : Prop :=
  (∀ (i : Instr) (rest : List Byte), i.wf = true → decode (encode i ++ rest) = .ok (i, rest)) ∧
  (∀ i : Instr, (encode i).length = i.opcode.layout.numBytes) ∧
  (∀ (bytes rest : List Byte) (i : Instr), decode bytes = .ok (i, rest) →
    (encode i ++ rest = bytes ↔
      (bytes.getD 0 0).toNat < 0x46 ∧ padIsZero i.opcode.layout fun k => bytes.getD k 0))

/-- 30_encoding.md R72 (decision D6; log 6): whatever the pad nibble holds, the bytes decode to the same
instruction. -/
def Obligations.PadNibblesAreIgnored : Prop :=
  ∀ (op : Byte) (v : Opcode), opcodeOfByte op = some v → ∀ (n pad pad' : Nibble) (x y : Byte) (rest : List Byte),
    (v.layout = .regA → decode (op :: (n ++ pad) :: rest) = decode (op :: (n ++ pad') :: rest)) ∧
    (v.layout = .regARegBRegC →
      decode (op :: (n ++ pad) :: x :: rest) = decode (op :: (n ++ pad') :: x :: rest)) ∧
    (v.layout = .regARegBImmA4 →
      decode (op :: (n ++ pad) :: x :: rest) = decode (op :: (n ++ pad') :: x :: rest)) ∧
    (v.layout = .regAImmA8 →
      decode (op :: x :: (n ++ pad) :: rest) = decode (op :: x :: (n ++ pad') :: rest)) ∧
    (v.layout = .regAImmA16 →
      decode (op :: x :: y :: (n ++ pad) :: rest) = decode (op :: x :: y :: (n ++ pad') :: rest))

/-- 30_encoding.md R92, 45_control.md R237 (decision D25; log 14): an opcode byte from 0x46 on decodes as NOP of
length 1, and a step at it changes nothing but IP, which moves by 1. -/
def Obligations.UnknownOpcodeIsOneByteNop : Prop :=
  (∀ (op : Byte) (rest : List Byte), 0x46 ≤ op.toNat → decode (op :: rest) = .ok (.nop, rest)) ∧
  ∀ s : State, 0x46 ≤ (s.readByte (s.readReg .ip)).toNat →
    step s = .next (s.writeReg .ip (s.readReg .ip + 1))

/-- 20_memory.md R46, 30_encoding.md R70 (wrap: decision D9; log 8): the length comes from the opcode byte
alone, it is 1 to 5, and two states that agree on IP and on the bytes of the instruction there fetch the same
instruction, of that length, whatever their other bytes. -/
def Obligations.FetchReadsOnlyTheInstruction : Prop :=
  ∀ s s' : State, s'.readReg .ip = s.readReg .ip →
    1 ≤ lengthOfByte (s.readByte (s.readReg .ip)) ∧ lengthOfByte (s.readByte (s.readReg .ip)) ≤ 5 ∧
    ((∀ k : Nat, k < lengthOfByte (s.readByte (s.readReg .ip)) →
        s'.readByte (s.readReg .ip + BitVec.ofNat 16 k) = s.readByte (s.readReg .ip + BitVec.ofNat 16 k)) →
      s'.fetch = s.fetch ∧ s.fetch.length = lengthOfByte (s.readByte (s.readReg .ip)))

/-! ### The whole machine -/

/-- 60_exceptions.md R240: there is no fault, and every instruction but SLP, whose treatment is a choice of the
model (log 1), completes in every state. -/
def Obligations.EveryInstructionButSlpCompletes : Prop :=
  (Fault → False) ∧ ∀ (i : Instr) (s : State), i ≠ .slp → ∃ t, exec i s = .next t

/-- 60_exceptions.md R240, 70_reset_and_hazards.md R266: from every state, under every sequence of driver
writes, no number of steps ends in a fault or a refusal. With SLP this rests on the model's choice
`SLP_TREATMENT = stub` (DESIGN CHOICE, log 1). -/
def Obligations.NoRunEverStops : Prop :=
  (∀ s : State, NeverStops s) ∧
  ∀ (ticks : List (List Driver.Poke)) (s : State), ∃ t, Driver.run ticks s = .next t

/-- 10_state.md R24, R41: the memory's canonical form (so that every listed address is below 65,536) is kept by
every step, by every write of the driver, and by a tick. The form is the model's own
representation (log 22). -/
def Obligations.StepKeepsMemoryCanonical : Prop :=
  ∀ s : State, MemoryCanonical s →
    (∀ t, step s = .next t → MemoryCanonical t) ∧
    ∀ ps : List Driver.Poke,
      MemoryCanonical (Driver.pokeAll ps s) ∧ ∀ t, Driver.tick ps s = .next t → MemoryCanonical t

/-- The memory's canonical form holds after reset and after the load of any image in that form, and images made
of bytes are in that form (the model's own representation; log 22). -/
def Obligations.ResetAndLoadAreCanonical : Prop :=
  MemoryCanonical State.reset ∧ (∀ image : Memory, image.wf → MemoryCanonical (Driver.load image)) ∧
  ∀ bs : List Byte, bs.length ≤ 65536 → Memory.wf (Driver.imageOfBytes bs)

/-- 10_state.md R16, R17, R18: an instruction changes no register but its destination and the ones it moves by
itself: SP for a push or a pop, AC and IP for JMP, IP for JMZ. -/
def Obligations.RegistersNotWrittenAreUnchanged : Prop :=
  ∀ (i : Instr) (s t : State) (r : Reg), exec i s = .next t → r ∉ writtenRegs i → t.readReg r = s.readReg r

/-- 20_memory.md R48, 10_state.md R24: an instruction changes no byte of memory but the ones it stores to, one
or two for stores and pushes at the address the meaning computes, none for every other instruction. -/
def Obligations.BytesNotStoredAreUnchanged : Prop :=
  ∀ (i : Instr) (s t : State) (a : Word), exec i s = .next t → a ∉ storedAddrs i s →
    t.readByte a = s.readByte a

/-- 10_state.md R19: a general register X0 to X11 that an instruction's fields do not name is neither read nor
written: the instruction runs alike whatever that register holds, and leaves it as it is. -/
def Obligations.UnnamedGeneralRegistersTakeNoPart : Prop :=
  ∀ (i : Instr) (s t : State) (r : Reg) (v : Word), isGeneral r = true → r ∉ namedRegs i →
    exec i s = .next t → t.readReg r = s.readReg r ∧ exec i (s.writeReg r v) = .next (t.writeReg r v)

/-- 10_state.md R14 (wrap: decision D9; log 8): a step whose instruction does not write IP leaves IP past the
instruction. -/
def Obligations.IpIsPastTheInstructionUnlessWritten : Prop :=
  ∀ s t : State, step s = .next t → .ip ∉ writtenRegs s.fetch →
    t.readReg .ip = s.readReg .ip + BitVec.ofNat 16 s.fetch.length

/-- 10_state.md R12: NL reads 0 and a write to it changes nothing; an instruction whose destination is NL still
does the rest: a pop moves SP. -/
def Obligations.NullRegisterReadsZeroAndDiscardsWrites : Prop :=
  (∀ s : State, s.readReg .nl = 0) ∧ (∀ (s : State) (v : Word), s.writeReg .nl v = s) ∧
  (∀ (s : State) (src : Reg) (v : Word), exec (.setRR .nl src) s = .next s ∧ exec (.setRI .nl v) s = .next s) ∧
  (∀ s : State, exec (.popwR .nl) s = .next (s.writeReg .sp (s.readReg .sp + 2))) ∧
  ∀ s : State, exec (.popbR .nl) s = .next (s.writeReg .sp (s.readReg .sp + 1))

/-! ### Memory -/

/-- 20_memory.md R40, R42 to R45: little-endian. After a word is stored at `a`, its low byte reads at `a`, its
high byte at the next address (modulo 65,536, D9; log 8), the word reads back, and two byte stores followed by
a word load give `second ++ first`. -/
def Obligations.WordsAreLittleEndian : Prop :=
  ∀ (s : State) (a v w : Word),
    (s.memWrite2 a v).memRead1 a = BitVec.ofNat 16 (v.toNat % 256) ∧
    (s.memWrite2 a v).memRead1 (a + 1) = BitVec.ofNat 16 (v.toNat / 256) ∧
    (s.memWrite2 a v).memRead2 a = v ∧
    ((s.memWrite1 a v).memWrite1 (a + 1) w).memRead2 a =
      BitVec.ofNat 16 (w.toNat % 256 * 256 + v.toNat % 256)

/-- 20_memory.md R41 (decision D9; log 8): address arithmetic is modulo 65,536, so every access stays in the
array: adding `k` to an address gives the address whose number is the sum modulo 65,536. -/
def Obligations.AddressArithmeticWraps : Prop :=
  (∀ (a : Word) (k : Nat), (addrAdd a k).toNat = (a.toNat + k) % 65536) ∧
  ∀ (a : Word) (k : Nat), k ≤ 65536 → (addrAdd a (-(k : Int))).toNat = (a.toNat + (65536 - k)) % 65536

/-- 20_memory.md R58 (decision D26; log 15): a store over bytes of the instruction that performs it does not
change that step, which executes the instruction that was fetched; a fetch at that address after it reads the
stored bytes there, and the old ones where nothing was stored. For every instruction that stores, and every byte of
it. -/
def Obligations.StoreOverRunningInstruction : Prop :=
  ∀ (s : State) (i : Instr) (rest : List Byte),
    decode [s.fetchByte 0, s.fetchByte 1, s.fetchByte 2, s.fetchByte 3, s.fetchByte 4] = .ok (i, rest) →
    let past := s.writeReg .ip (addrAdd (s.readReg .ip) i.length)
    storedAddrs i past ≠ [] →
      ∃ t, step s = .next t ∧ exec i past = .next t ∧ t.readReg .ip = addrAdd (s.readReg .ip) i.length ∧
        ∀ k < i.length,
          (∀ b, (addrAdd (s.readReg .ip) k, b) ∈ storedCells i past →
            (t.writeReg .ip (s.readReg .ip)).fetchByte k = b) ∧
          (addrAdd (s.readReg .ip) k ∉ storedAddrs i past →
            (t.writeReg .ip (s.readReg .ip)).fetchByte k = s.fetchByte k)

/-! ### Data movement -/

/-- 40_data_movement.md R131, R132: SET copies a register or an immediate into its destination. -/
def Obligations.SetWritesItsDestination : Prop :=
  ∀ (d src : Reg) (v : Word),
    encode (.setRR d src) = [0x01, regNum d ++ regNum src] ∧
    (∀ s, ∃ t, exec (.setRR d src) s = .next t ∧ WritesRegOnly d (s.readReg src) s t) ∧
    encode (.setRI d v) = [0x02, lowByte v, highByte v, regNum d ++ (0 : Nibble)] ∧
    (∀ s, ∃ t, exec (.setRI d v) s = .next t ∧ WritesRegOnly d v s t)

/-- 40_data_movement.md R133, R134, 20_memory.md R42 (zero-extension: decision D11; log 10): LDB writes the byte
at the address, widened with zeros, to its destination; the address is read first. -/
def Obligations.LoadByteWidensWithZeros : Prop :=
  ∀ (d ra : Reg) (addr : Word) (s : State),
    (∃ t, exec (.ldbRR d ra) s = .next t ∧
      WritesRegOnly d (BitVec.ofNat 16 (s.readByte (s.readReg ra)).toNat) s t) ∧
    (∃ t, exec (.ldbRI d addr) s = .next t ∧
      WritesRegOnly d (BitVec.ofNat 16 (s.readByte addr).toNat) s t)

/-- 40_data_movement.md R135, R136, 20_memory.md R43: LDW writes the word whose low byte is at the address and
whose high byte is at the next one (modulo 65,536) to its destination; the address is read first. -/
def Obligations.LoadWordReadsTwoBytes : Prop :=
  ∀ (d ra : Reg) (addr : Word),
    encode (.ldwRR d ra) = [0x05, regNum d ++ regNum ra] ∧
    (∀ s, ∃ t, exec (.ldwRR d ra) s = .next t ∧
      WritesRegOnly d
        (BitVec.ofNat 16
          ((s.readByte (s.readReg ra + 1)).toNat * 256 + (s.readByte (s.readReg ra)).toNat)) s t) ∧
    encode (.ldwRI d addr) = [0x06, lowByte addr, highByte addr, regNum d ++ (0 : Nibble)] ∧
    (∀ s, ∃ t, exec (.ldwRI d addr) s = .next t ∧
      WritesRegOnly d
        (BitVec.ofNat 16 ((s.readByte (addr + 1)).toNat * 256 + (s.readByte addr).toNat)) s t)

/-- 40_data_movement.md R137 to R140, 20_memory.md R44 (decisions D5, D11; log 6, log 10): STB stores the low
byte of its value at its address and changes nothing else. -/
def Obligations.StoreByteStoresTheLowByte : Prop :=
  ∀ (ra src : Reg) (addr v : Word) (s : State),
    (∃ t, exec (.stbRR ra src) s = .next t ∧
      StoresByteOnly (s.readReg ra) (BitVec.ofNat 8 (s.readReg src).toNat) s t) ∧
    (∃ t, exec (.stbRI ra v) s = .next t ∧ StoresByteOnly (s.readReg ra) (BitVec.ofNat 8 v.toNat) s t) ∧
    (∃ t, exec (.stbIR addr src) s = .next t ∧
      StoresByteOnly addr (BitVec.ofNat 8 (s.readReg src).toNat) s t) ∧
    (∃ t, exec (.stbII addr v) s = .next t ∧ StoresByteOnly addr (BitVec.ofNat 8 v.toNat) s t)

/-- 40_data_movement.md R141 to R144, 20_memory.md R45: STW stores its value at its address, low byte first, and
changes nothing else. -/
def Obligations.StoreWordStoresTwoBytes : Prop :=
  ∀ (ra src : Reg) (addr v : Word),
    encode (.stwRR ra src) = [0x0B, regNum ra ++ regNum src] ∧
    (∀ s, ∃ t, exec (.stwRR ra src) s = .next t ∧ StoresWordOnly (s.readReg ra) (s.readReg src) s t) ∧
    encode (.stwRI ra v) = [0x0C, lowByte v, highByte v, regNum ra ++ (0 : Nibble)] ∧
    (∀ s, ∃ t, exec (.stwRI ra v) s = .next t ∧ StoresWordOnly (s.readReg ra) v s t) ∧
    encode (.stwIR addr src) = [0x0D, lowByte addr, highByte addr, regNum src ++ (0 : Nibble)] ∧
    (∀ s, ∃ t, exec (.stwIR addr src) s = .next t ∧ StoresWordOnly addr (s.readReg src) s t) ∧
    encode (.stwII addr v) = [0x0E, lowByte addr, highByte addr, lowByte v, highByte v] ∧
    (∀ s, ∃ t, exec (.stwII addr v) s = .next t ∧ StoresWordOnly addr v s t)

/-! ### Stack -/

/-- 41_stack.md R151, R152: PSHB moves SP down by 1 and stores the low byte of its value, read before SP moves,
at the new SP; nothing else changes. -/
def Obligations.PushByteMovesSpThenStores : Prop :=
  ∀ (src : Reg) (v : Word) (s : State),
    (∃ t, exec (.pshbR src) s = .next t ∧
      (∀ r, t.readReg r = if r = .sp then s.readReg .sp - 1 else s.readReg r) ∧
      ∀ a, t.readByte a =
        if a = s.readReg .sp - 1 then BitVec.ofNat 8 (s.readReg src).toNat else s.readByte a) ∧
    (∃ t, exec (.pshbI v) s = .next t ∧
      (∀ r, t.readReg r = if r = .sp then s.readReg .sp - 1 else s.readReg r) ∧
      ∀ a, t.readByte a = if a = s.readReg .sp - 1 then BitVec.ofNat 8 v.toNat else s.readByte a)

/-- 41_stack.md R153, R154: PSHW moves SP down by 2 and stores its value, read before SP moves, at the new SP,
low byte first; nothing else changes. -/
def Obligations.PushWordMovesSpThenStores : Prop :=
  ∀ (src : Reg) (v : Word),
    encode (.pshwR src) = [0x11, regNum src ++ (0 : Nibble)] ∧
    (∀ s, ∃ t, exec (.pshwR src) s = .next t ∧
      (∀ r, t.readReg r = if r = .sp then s.readReg .sp - 2 else s.readReg r) ∧
      ∀ a, t.readByte a =
        if a = s.readReg .sp - 2 then lowByte (s.readReg src)
        else if a = s.readReg .sp - 1 then highByte (s.readReg src) else s.readByte a) ∧
    encode (.pshwI v) = [0x12, lowByte v, highByte v] ∧
    (∀ s, ∃ t, exec (.pshwI v) s = .next t ∧
      (∀ r, t.readReg r = if r = .sp then s.readReg .sp - 2 else s.readReg r) ∧
      ∀ a, t.readByte a =
        if a = s.readReg .sp - 2 then lowByte v
        else if a = s.readReg .sp - 1 then highByte v else s.readByte a)

/-- 41_stack.md R155 (zero-extension and order: decisions D11, D10; log 9, log 10): POPB writes the byte at SP,
widened with zeros, to its destination, which wins where it is SP itself, and moves SP up by 1; memory and
every other register are unchanged. -/
def Obligations.PopByteReadsThenMovesSp : Prop :=
  ∀ (d : Reg) (s : State), ∃ t, exec (.popbR d) s = .next t ∧ SameMemory s t ∧
    ∀ r, t.readReg r =
      if r = .nl then 0
      else if r = d then BitVec.ofNat 16 (s.readByte (s.readReg .sp)).toNat
      else if r = .sp then s.readReg .sp + 1 else s.readReg r

/-- 41_stack.md R156 (order: decision D10; log 9): POPW writes the word at SP to its destination, which wins
where it is SP itself, and moves SP up by 2; memory and every other register are unchanged. -/
def Obligations.PopWordReadsThenMovesSp : Prop :=
  ∀ (d : Reg) (s : State), ∃ t, exec (.popwR d) s = .next t ∧ SameMemory s t ∧
    ∀ r, t.readReg r =
      if r = .nl then 0
      else if r = d then
        BitVec.ofNat 16
          ((s.readByte (s.readReg .sp + 1)).toNat * 256 + (s.readByte (s.readReg .sp)).toNat)
      else if r = .sp then s.readReg .sp + 2 else s.readReg r

/-- 41_stack.md R157: a push followed at once by a pop of the same register (not SP, not IP) restores SP and,
for words, the register; for bytes the register ends as its low byte. Between the two the step moves IP to any
`ip'`. -/
def Obligations.PushThenPopRestores : Prop :=
  ∀ (r : Reg) (s : State) (ip' : Word), r ≠ .sp → r ≠ .ip →
    (∃ t u, exec (.pshwR r) s = .next t ∧ exec (.popwR r) (t.writeReg .ip ip') = .next u ∧
      ∀ x, x ≠ .ip → u.readReg x = s.readReg x) ∧
    (∃ t u, exec (.pshbR r) s = .next t ∧ exec (.popbR r) (t.writeReg .ip ip') = .next u ∧
      u.readReg r = BitVec.ofNat 16 ((s.readReg r).toNat % 256) ∧
      ∀ x, x ≠ .ip → x ≠ r → u.readReg x = s.readReg x)

/-! ### Arithmetic -/

/-- 42_arithmetic.md R161, R162: ADD writes the sum modulo 65,536 to its destination. -/
def Obligations.AddWritesTheSum : Prop :=
  ∀ (d s1 s2 : Reg) (v : Word),
    encode (.addRRR d s1 s2) = [0x15, regNum s2 ++ (0 : Nibble), regNum d ++ regNum s1] ∧
    (∀ s, ∃ t, exec (.addRRR d s1 s2) s = .next t ∧ WritesRegOnly d (s.readReg s1 + s.readReg s2) s t) ∧
    encode (.addRRI d s1 v) = [0x16, lowByte v, highByte v, regNum d ++ regNum s1] ∧
    (∀ s, ∃ t, exec (.addRRI d s1 v) s = .next t ∧ WritesRegOnly d (s.readReg s1 + v) s t)

/-- 42_arithmetic.md R163, R164, R165: SUB writes left minus right modulo 65,536; the mirror form has the
immediate on the left. -/
def Obligations.SubWritesTheDifference : Prop :=
  ∀ (d s1 s2 : Reg) (v : Word),
    encode (.subRRR d s1 s2) = [0x17, regNum s2 ++ (0 : Nibble), regNum d ++ regNum s1] ∧
    (∀ s, ∃ t, exec (.subRRR d s1 s2) s = .next t ∧ WritesRegOnly d (s.readReg s1 - s.readReg s2) s t) ∧
    encode (.subRRI d s1 v) = [0x18, lowByte v, highByte v, regNum d ++ regNum s1] ∧
    (∀ s, ∃ t, exec (.subRRI d s1 v) s = .next t ∧ WritesRegOnly d (s.readReg s1 - v) s t) ∧
    encode (.subRIR d v s2) = [0x19, lowByte v, highByte v, regNum d ++ regNum s2] ∧
    (∀ s, ∃ t, exec (.subRIR d v s2) s = .next t ∧ WritesRegOnly d (v - s.readReg s2) s t)

/-- 42_arithmetic.md R166, R167: MUL writes the low 16 bits of the product. -/
def Obligations.MulWritesTheLowProduct : Prop :=
  ∀ (d s1 s2 : Reg) (v : Word),
    encode (.mulRRR d s1 s2) = [0x1A, regNum s2 ++ (0 : Nibble), regNum d ++ regNum s1] ∧
    (∀ s, ∃ t, exec (.mulRRR d s1 s2) s = .next t ∧ WritesRegOnly d (s.readReg s1 * s.readReg s2) s t) ∧
    encode (.mulRRI d s1 v) = [0x1B, lowByte v, highByte v, regNum d ++ regNum s1] ∧
    (∀ s, ∃ t, exec (.mulRRI d s1 v) s = .next t ∧ WritesRegOnly d (s.readReg s1 * v) s t)

/-- 42_arithmetic.md R172: ADD, SUB and MUL give the same 16 bits whether the operands are read as signed or as
unsigned. -/
def Obligations.SignedAndUnsignedArithmeticAgree : Prop :=
  ∀ (d s1 s2 : Reg) (s : State), d ≠ .nl →
    (∃ t, exec (.addRRR d s1 s2) s = .next t ∧
      t.readReg d = u16 (s16 (s.readReg s1) + s16 (s.readReg s2)) ∧
      t.readReg d = u16 (unsigned16 (s.readReg s1) + unsigned16 (s.readReg s2))) ∧
    (∃ t, exec (.subRRR d s1 s2) s = .next t ∧
      t.readReg d = u16 (s16 (s.readReg s1) - s16 (s.readReg s2)) ∧
      t.readReg d = u16 (unsigned16 (s.readReg s1) - unsigned16 (s.readReg s2))) ∧
    (∃ t, exec (.mulRRR d s1 s2) s = .next t ∧
      t.readReg d = u16 (s16 (s.readReg s1) * s16 (s.readReg s2)) ∧
      t.readReg d = u16 (unsigned16 (s.readReg s1) * unsigned16 (s.readReg s2)))

/-- 42_arithmetic.md, "DIVS, DIVU, REMS, REMU", first clause: DIVS by zero writes 0x7FFF for a positive
dividend, 0x8000 for a negative one, 0x0000 for zero; by a non-zero divisor the quotient rounded toward zero,
-32768 / -1 wrapping (decision D13; log 12). -/
def Obligations.SignedDivisionWritesTheQuotient : Prop :=
  ∀ (d s1 s2 : Reg) (s : State), ∃ t, exec (.divsRRR d s1 s2) s = .next t ∧
    WritesRegOnly d
      (if s.readReg s2 = 0 then
        if s.readReg s1 = 0 then 0x0000 else if (s.readReg s1).msb then 0x8000 else 0x7FFF
      else (s.readReg s1).sdiv (s.readReg s2)) s t

/-- 42_arithmetic.md R169: DIVU by zero writes 0xFFFF, or 0x0000 where the dividend is zero too; else the floor
of the quotient. -/
def Obligations.UnsignedDivisionWritesTheQuotient : Prop :=
  ∀ d s1 s2 : Reg,
    encode (.divuRRR d s1 s2) = [0x1D, regNum s2 ++ (0 : Nibble), regNum d ++ regNum s1] ∧
    ∀ s, ∃ t, exec (.divuRRR d s1 s2) s = .next t ∧
      WritesRegOnly d
        (if s.readReg s2 = 0 then if s.readReg s1 = 0 then 0x0000 else 0xFFFF
        else BitVec.ofNat 16 ((s.readReg s1).toNat / (s.readReg s2).toNat)) s t

/-- 42_arithmetic.md, "DIVS, DIVU, REMS, REMU": REMS by zero writes the dividend; else the remainder with the
dividend's sign (decision D13; log 12). -/
def Obligations.SignedRemainderTakesTheDividendsSign : Prop :=
  ∀ (d s1 s2 : Reg) (s : State), ∃ t, exec (.remsRRR d s1 s2) s = .next t ∧
    WritesRegOnly d
      (if s.readReg s2 = 0 then s.readReg s1 else (s.readReg s1).srem (s.readReg s2)) s t

/-- 42_arithmetic.md R171: REMU by zero writes the dividend, else the dividend modulo the divisor. -/
def Obligations.UnsignedRemainderWritesTheModulus : Prop :=
  ∀ d s1 s2 : Reg,
    encode (.remuRRR d s1 s2) = [0x1F, regNum s2 ++ (0 : Nibble), regNum d ++ regNum s1] ∧
    ∀ s, ∃ t, exec (.remuRRR d s1 s2) s = .next t ∧
      WritesRegOnly d
        (if s.readReg s2 = 0 then s.readReg s1
        else BitVec.ofNat 16 ((s.readReg s1).toNat % (s.readReg s2).toNat)) s t

/-- 42_arithmetic.md R170, "The identity": for a non-zero divisor, dividend = divisor * quotient + remainder
modulo 65,536, signed and unsigned (decision D13 for the signed pair; log 12). -/
def Obligations.QuotientAndRemainderRecoverTheDividend : Prop :=
  ∀ (d s1 s2 : Reg) (s : State), d ≠ .nl → s.readReg s2 ≠ 0 →
    (∃ t u, exec (.divsRRR d s1 s2) s = .next t ∧ exec (.remsRRR d s1 s2) s = .next u ∧
      s.readReg s1 = s.readReg s2 * t.readReg d + u.readReg d) ∧
    (∃ t u, exec (.divuRRR d s1 s2) s = .next t ∧ exec (.remuRRR d s1 s2) s = .next u ∧
      s.readReg s1 = s.readReg s2 * t.readReg d + u.readReg d)

/-! ### Bitwise operations and shifts -/

/-- 43_logic_shift.md R181 to R186: AND, IOR and XOR work bit by bit on all 16 bits, the right operand a register
or an immediate. -/
def Obligations.BitwiseOperationsWorkBitByBit : Prop :=
  ∀ (d s1 s2 : Reg) (v : Word),
    encode (.andRRR d s1 s2) = [0x20, regNum s2 ++ (0 : Nibble), regNum d ++ regNum s1] ∧
    encode (.andRRI d s1 v) = [0x21, lowByte v, highByte v, regNum d ++ regNum s1] ∧
    encode (.iorRRR d s1 s2) = [0x22, regNum s2 ++ (0 : Nibble), regNum d ++ regNum s1] ∧
    encode (.iorRRI d s1 v) = [0x23, lowByte v, highByte v, regNum d ++ regNum s1] ∧
    encode (.xorRRR d s1 s2) = [0x24, regNum s2 ++ (0 : Nibble), regNum d ++ regNum s1] ∧
    encode (.xorRRI d s1 v) = [0x25, lowByte v, highByte v, regNum d ++ regNum s1] ∧
    ∀ s : State,
      (∃ t x, exec (.andRRR d s1 s2) s = .next t ∧ WritesRegOnly d x s t ∧
        ∀ k, x.getLsbD k = ((s.readReg s1).getLsbD k && (s.readReg s2).getLsbD k)) ∧
      (∃ t x, exec (.andRRI d s1 v) s = .next t ∧ WritesRegOnly d x s t ∧
        ∀ k, x.getLsbD k = ((s.readReg s1).getLsbD k && v.getLsbD k)) ∧
      (∃ t x, exec (.iorRRR d s1 s2) s = .next t ∧ WritesRegOnly d x s t ∧
        ∀ k, x.getLsbD k = ((s.readReg s1).getLsbD k || (s.readReg s2).getLsbD k)) ∧
      (∃ t x, exec (.iorRRI d s1 v) s = .next t ∧ WritesRegOnly d x s t ∧
        ∀ k, x.getLsbD k = ((s.readReg s1).getLsbD k || v.getLsbD k)) ∧
      (∃ t x, exec (.xorRRR d s1 s2) s = .next t ∧ WritesRegOnly d x s t ∧
        ∀ k, x.getLsbD k = ((s.readReg s1).getLsbD k ^^ (s.readReg s2).getLsbD k)) ∧
      (∃ t x, exec (.xorRRI d s1 v) s = .next t ∧ WritesRegOnly d x s t ∧
        ∀ k, x.getLsbD k = ((s.readReg s1).getLsbD k ^^ v.getLsbD k))

/-- 43_logic_shift.md R189, R192, R195: a shift by a 4-bit immediate. Zeros enter for LSH and RSHU, copies of bit
15 for RSHS. -/
def Obligations.ShiftsByAnImmediate : Prop :=
  ∀ (d src : Reg) (n : Word), n.toNat < 16 →
    encode (.lshRRI d src n) = [0x27, BitVec.ofNat 4 n.toNat ++ (0 : Nibble), regNum d ++ regNum src] ∧
    (∀ s, ∃ t, exec (.lshRRI d src n) s = .next t ∧ WritesRegOnly d (s.readReg src <<< n.toNat) s t) ∧
    encode (.rshsRRI d src n) = [0x2A, BitVec.ofNat 4 n.toNat ++ (0 : Nibble), regNum d ++ regNum src] ∧
    (∀ s, ∃ t, exec (.rshsRRI d src n) s = .next t ∧
      WritesRegOnly d ((s.readReg src).sshiftRight n.toNat) s t) ∧
    encode (.rshuRRI d src n) = [0x2D, BitVec.ofNat 4 n.toNat ++ (0 : Nibble), regNum d ++ regNum src] ∧
    (∀ s, ∃ t, exec (.rshuRRI d src n) s = .next t ∧ WritesRegOnly d (s.readReg src >>> n.toNat) s t)

/-- 43_logic_shift.md R187 with R188, R190, R191, R193, R194, R196 (amounts of 16 and more: decision D12,
`saturate`; log 11): a shift by a register, of a register or of an immediate, by the whole 16-bit amount: what
leaves is lost, so amounts from 16 on give 0, or the sign for RSHS. -/
def Obligations.ShiftsByARegisterSaturate : Prop :=
  ∀ (d src rn : Reg) (v : Word) (s : State),
    (∃ t, exec (.lshRRR d src rn) s = .next t ∧
      WritesRegOnly d (s.readReg src <<< (s.readReg rn).toNat) s t) ∧
    (∃ t, exec (.lshRIR d v rn) s = .next t ∧ WritesRegOnly d (v <<< (s.readReg rn).toNat) s t) ∧
    (∃ t, exec (.rshsRRR d src rn) s = .next t ∧
      WritesRegOnly d ((s.readReg src).sshiftRight (s.readReg rn).toNat) s t) ∧
    (∃ t, exec (.rshsRIR d v rn) s = .next t ∧
      WritesRegOnly d (v.sshiftRight (s.readReg rn).toNat) s t) ∧
    (∃ t, exec (.rshuRRR d src rn) s = .next t ∧
      WritesRegOnly d (s.readReg src >>> (s.readReg rn).toNat) s t) ∧
    (∃ t, exec (.rshuRIR d v rn) s = .next t ∧ WritesRegOnly d (v >>> (s.readReg rn).toNat) s t)

/-- 43_logic_shift.md R187 (decision D12; log 11): the other admitted value of `SHIFT_MODE`, `mod16`, takes the
amount modulo 16; the two modes agree on the amounts below 16. -/
def Obligations.ShiftModesDifferOnlyFromSixteenOn : Prop :=
  ∀ v n : Word,
    aluLsh .mod16 v n = v <<< (n.toNat % 16) ∧
    aluRshu .mod16 v n = v >>> (n.toNat % 16) ∧
    aluRshs .mod16 v n = v.sshiftRight (n.toNat % 16) ∧
    (n.toNat < 16 → aluLsh .mod16 v n = aluLsh .saturate v n ∧ aluRshu .mod16 v n = aluRshu .saturate v n ∧
      aluRshs .mod16 v n = aluRshs .saturate v n)

/-! ### Comparisons -/

/-- 44_compare.md R201 to R206: CEQ and CNE compare all 16 bits and write 1 or 0 over the whole destination. -/
def Obligations.EqualityComparisons : Prop :=
  ∀ (d s1 s2 : Reg) (v : Word),
    encode (.ceqRRR d s1 s2) = [0x2F, regNum s2 ++ (0 : Nibble), regNum d ++ regNum s1] ∧
    encode (.ceqRRI d s1 v) = [0x30, lowByte v, highByte v, regNum d ++ regNum s1] ∧
    encode (.ceqRIR d v s2) = [0x31, lowByte v, highByte v, regNum d ++ regNum s2] ∧
    encode (.cneRRR d s1 s2) = [0x32, regNum s2 ++ (0 : Nibble), regNum d ++ regNum s1] ∧
    encode (.cneRRI d s1 v) = [0x33, lowByte v, highByte v, regNum d ++ regNum s1] ∧
    encode (.cneRIR d v s2) = [0x34, lowByte v, highByte v, regNum d ++ regNum s2] ∧
    ∀ s : State,
      (∃ t, exec (.ceqRRR d s1 s2) s = .next t ∧
        WritesRegOnly d (if s.readReg s1 = s.readReg s2 then 1 else 0) s t) ∧
      (∃ t, exec (.ceqRRI d s1 v) s = .next t ∧ WritesRegOnly d (if s.readReg s1 = v then 1 else 0) s t) ∧
      (∃ t, exec (.ceqRIR d v s2) s = .next t ∧ WritesRegOnly d (if v = s.readReg s2 then 1 else 0) s t) ∧
      (∃ t, exec (.cneRRR d s1 s2) s = .next t ∧
        WritesRegOnly d (if s.readReg s1 = s.readReg s2 then 0 else 1) s t) ∧
      (∃ t, exec (.cneRRI d s1 v) s = .next t ∧ WritesRegOnly d (if s.readReg s1 = v then 0 else 1) s t) ∧
      (∃ t, exec (.cneRIR d v s2) s = .next t ∧ WritesRegOnly d (if v = s.readReg s2 then 0 else 1) s t)

/-- 44_compare.md R207 to R209, R213 to R215: CLTS and CGES compare the signed values themselves. -/
def Obligations.SignedComparisons : Prop :=
  ∀ (d s1 s2 : Reg) (v : Word),
    encode (.cltsRRR d s1 s2) = [0x35, regNum s2 ++ (0 : Nibble), regNum d ++ regNum s1] ∧
    encode (.cltsRRI d s1 v) = [0x36, lowByte v, highByte v, regNum d ++ regNum s1] ∧
    encode (.cltsRIR d v s2) = [0x37, lowByte v, highByte v, regNum d ++ regNum s2] ∧
    encode (.cgesRRR d s1 s2) = [0x3B, regNum s2 ++ (0 : Nibble), regNum d ++ regNum s1] ∧
    encode (.cgesRRI d s1 v) = [0x3C, lowByte v, highByte v, regNum d ++ regNum s1] ∧
    encode (.cgesRIR d v s2) = [0x3D, lowByte v, highByte v, regNum d ++ regNum s2] ∧
    ∀ s : State,
      (∃ t, exec (.cltsRRR d s1 s2) s = .next t ∧
        WritesRegOnly d (if (s.readReg s1).slt (s.readReg s2) then 1 else 0) s t) ∧
      (∃ t, exec (.cltsRRI d s1 v) s = .next t ∧
        WritesRegOnly d (if (s.readReg s1).slt v then 1 else 0) s t) ∧
      (∃ t, exec (.cltsRIR d v s2) s = .next t ∧
        WritesRegOnly d (if v.slt (s.readReg s2) then 1 else 0) s t) ∧
      (∃ t, exec (.cgesRRR d s1 s2) s = .next t ∧
        WritesRegOnly d (if (s.readReg s1).slt (s.readReg s2) then 0 else 1) s t) ∧
      (∃ t, exec (.cgesRRI d s1 v) s = .next t ∧
        WritesRegOnly d (if (s.readReg s1).slt v then 0 else 1) s t) ∧
      (∃ t, exec (.cgesRIR d v s2) s = .next t ∧
        WritesRegOnly d (if v.slt (s.readReg s2) then 0 else 1) s t)

/-- 44_compare.md R210 to R212, R216 to R218: CLTU and CGEU compare the values 0..65,535. -/
def Obligations.UnsignedComparisons : Prop :=
  ∀ (d s1 s2 : Reg) (v : Word),
    encode (.cltuRRR d s1 s2) = [0x38, regNum s2 ++ (0 : Nibble), regNum d ++ regNum s1] ∧
    encode (.cltuRRI d s1 v) = [0x39, lowByte v, highByte v, regNum d ++ regNum s1] ∧
    encode (.cltuRIR d v s2) = [0x3A, lowByte v, highByte v, regNum d ++ regNum s2] ∧
    encode (.cgeuRRR d s1 s2) = [0x3E, regNum s2 ++ (0 : Nibble), regNum d ++ regNum s1] ∧
    encode (.cgeuRRI d s1 v) = [0x3F, lowByte v, highByte v, regNum d ++ regNum s1] ∧
    encode (.cgeuRIR d v s2) = [0x40, lowByte v, highByte v, regNum d ++ regNum s2] ∧
    ∀ s : State,
      (∃ t, exec (.cltuRRR d s1 s2) s = .next t ∧
        WritesRegOnly d (if (s.readReg s1).toNat < (s.readReg s2).toNat then 1 else 0) s t) ∧
      (∃ t, exec (.cltuRRI d s1 v) s = .next t ∧
        WritesRegOnly d (if (s.readReg s1).toNat < v.toNat then 1 else 0) s t) ∧
      (∃ t, exec (.cltuRIR d v s2) s = .next t ∧
        WritesRegOnly d (if v.toNat < (s.readReg s2).toNat then 1 else 0) s t) ∧
      (∃ t, exec (.cgeuRRR d s1 s2) s = .next t ∧
        WritesRegOnly d (if (s.readReg s1).toNat < (s.readReg s2).toNat then 0 else 1) s t) ∧
      (∃ t, exec (.cgeuRRI d s1 v) s = .next t ∧
        WritesRegOnly d (if (s.readReg s1).toNat < v.toNat then 0 else 1) s t) ∧
      (∃ t, exec (.cgeuRIR d v s2) s = .next t ∧
        WritesRegOnly d (if v.toNat < (s.readReg s2).toNat then 0 else 1) s t)

/-! ### Control -/

/-- 45_control.md R232: JMP to an immediate copies the advanced IP into AC and moves IP to the target; nothing
else changes. R231's form with a register target reads the target before AC is written (decision D10; log 9),
so `jmp $ac` goes to the old AC. -/
def Obligations.JmpLinksAndJumps : Prop :=
  ∀ (rt : Reg) (target : Word) (s : State),
    (∃ t, exec (.jmpR rt) s = .next t ∧ SameMemory s t ∧ ∀ r, t.readReg r =
      if r = .ip then s.readReg rt else if r = .ac then s.readReg .ip else s.readReg r) ∧
    (∃ t, exec (.jmpI target) s = .next t ∧ SameMemory s t ∧ ∀ r, t.readReg r =
      if r = .ip then target else if r = .ac then s.readReg .ip else s.readReg r)

/-- 45_control.md R233, R234: JMZ moves IP to its target exactly where all 16 bits of the condition register are
0, and changes nothing else; AC is not written (decision D14; log 13). -/
def Obligations.JmzJumpsOnZeroWithoutLink : Prop :=
  ∀ (c rt : Reg) (target : Word) (s : State),
    (∃ t, exec (.jmzRR c rt) s = .next t ∧ SameMemory s t ∧ ∀ r, t.readReg r =
      if r = .ip ∧ s.readReg c = 0 then s.readReg rt else s.readReg r) ∧
    (∃ t, exec (.jmzRI c target) s = .next t ∧ SameMemory s t ∧ ∀ r, t.readReg r =
      if r = .ip ∧ s.readReg c = 0 then target else s.readReg r)

/-- 45_control.md R235: NOP has no effect; a step at the byte 0x00 changes nothing but IP, which moves by 1
(the byte 0x00: decision D2; log 5). -/
def Obligations.NopOnlyAdvancesIp : Prop :=
  (∀ s : State, exec .nop s = .next s) ∧
  ∀ s : State, s.readByte (s.readReg .ip) = 0x00 → step s = .next (s.writeReg .ip (s.readReg .ip + 1))

/-- 45_control.md R236 under `SLP_TREATMENT = stub`, which is the model's choice (DESIGN CHOICE, log 1): SLP has
no effect; a step at the byte 0x45 changes nothing but IP, which moves by 1. -/
def Obligations.SlpStubOnlyAdvancesIp : Prop :=
  (∀ s : State, exec .slp s = .next s) ∧
  ∀ s : State, s.readByte (s.readReg .ip) = 0x45 → step s = .next (s.writeReg .ip (s.readReg .ip + 1))

/-- 70_reset_and_hazards.md R266 (decision D18): `jmz $nl` to its own address leaves the whole state unchanged,
step after step; `jmp` to its own address does so after its first execution. -/
def Obligations.JumpToItselfTerminates : Prop :=
  (∀ s : State, (∀ k : Nat, k < 4 → s.fetchByte k = (encode (.jmzRI .nl (s.readReg .ip))).getD k 0) →
    Terminated s ∧ ∀ n, core.run n s = .next s) ∧
  (∀ s : State, (∀ k : Nat, k < 3 → s.fetchByte k = (encode (.jmpI (s.readReg .ip))).getD k 0) →
    ∃ t, step s = .next t ∧ Terminated t ∧ t.readReg .ac = s.readReg .ip + 3 ∧ SameMemory s t ∧
      ∀ r, r ≠ .ac → t.readReg r = s.readReg r)

/-! ### Reset and the driver -/

/-- 70_reset_and_hazards.md R260: reset is the load of an image: every register is zero and every byte of memory
is the image's. -/
def Obligations.LoadZeroesRegistersAndSetsMemory : Prop :=
  ∀ image : Memory,
    (∀ r, (Driver.load image).readReg r = 0) ∧ ∀ a, (Driver.load image).readByte a = image.byteAt a.toNat

/-- 70_reset_and_hazards.md R261 (decision D16 for the fill; the image of `State.reset`, in which nothing is
written, is the model's choice: DESIGN CHOICE, log 2): the image made of bytes holds them from address 0 and
0x00 after them, and `State.reset` has every register and every byte zero. -/
def Obligations.ImageHoldsItsBytesThenZeros : Prop :=
  (∀ (bs : List Byte) (a : Word), bs.length ≤ 65536 →
    (Driver.load (Driver.imageOfBytes bs)).readByte a = bs.getD a.toNat 0x00) ∧
  (∀ r, State.reset.readReg r = 0) ∧ ∀ a, State.reset.readByte a = 0x00

/-- 20_memory.md R55, 70_reset_and_hazards.md R265 (decision D23; log 4): writes that the driver may make change
no register and no byte but 0xE000 and 0xE001. Of any list of writes (R264): an address that none of them names
keeps its byte, and an address holds the value of the last write to it, whatever the other writes of the list. -/
def Obligations.DriverReachesOnlyTheInputPorts : Prop :=
  (∀ (ps : List Driver.Poke) (s : State), (∀ p ∈ ps, Driver.admitted p = true) →
    SameRegs s (Driver.pokeAll ps s) ∧
    ∀ a : Word, a ≠ 0xE000 → a ≠ 0xE001 → (Driver.pokeAll ps s).readByte a = s.readByte a) ∧
  (∀ (ps : List Driver.Poke) (s : State) (a : Word), (∀ p ∈ ps, p.addr ≠ a) →
    (Driver.pokeAll ps s).readByte a = s.readByte a) ∧
  ∀ (ps qs : List Driver.Poke) (p : Driver.Poke) (s : State), (∀ q ∈ qs, q.addr ≠ p.addr) →
    (Driver.pokeAll (ps ++ p :: qs) s).readByte p.addr = p.value

/-! ### The assembler -/

/-- 30_encoding.md R113, R114, R115 (decisions D7, D21; log 7, log 19): an instruction written with its mnemonic
and its operands in assembly order is assembled to that instruction, with no reference to a label. The value of
STB_ii is in the range the assembler accepts. -/
def Obligations.AssemblerSelectsTheInstruction : Prop :=
  ∀ i : Instr, i.wf = true → (∀ addr v, i = .stbII addr v → v.toNat < 256) →
    ∃ imms, Assembler.assembleInstr (Assembler.mnemonicOf i.opcode) (Assembler.operandsOf i) = .ok (i, imms) ∧
      ∀ m ∈ imms, m.ref = none

/-- 30_encoding.md R115, R117, R123, 20_memory.md R51: a program of one such line becomes the image that holds
the instruction's bytes from address 0 and 0x00 after them. The clause `image.wf` speaks of the canonical form of
the model's own representation of memory (log 22, DESIGN CHOICE) and rests on no rule. -/
def Obligations.OneLineProgramBecomesItsBytes : Prop :=
  ∀ i : Instr, i.wf = true → (∀ addr v, i = .stbII addr v → v.toNat < 256) →
    ∃ image, Assembler.assemble [Assembler.lineOf i] = .ok image ∧ image.wf ∧
      ∀ a : Word, image.byteAt a.toNat = (encode i).getD a.toNat 0x00

/-- 30_encoding.md R118, R121 (the property S4 of spec/95_test_vectors.md): a jump to a label that stands on the
line after it is patched with that line's address, 3, whatever the name and the instruction there. The clause
`image.wf` speaks of the canonical form of the model's own representation of memory (log 22, DESIGN CHOICE) and
rests on no rule. -/
def Obligations.ForwardReferenceIsPatched : Prop :=
  ∀ (name : Assembler.Name) (i : Instr), i.wf = true → (∀ addr v, i = .stbII addr v → v.toNat < 256) →
    ∃ image,
      Assembler.assemble
          [.instr .jmp [.label name], .label (.byName name), Assembler.lineOf i] = .ok image ∧
        image.wf ∧ ∀ a : Word, image.byteAt a.toNat = ([0x42, 0x03, 0x00] ++ encode i).getD a.toNat 0x00
end

