-- ==== Sys2Proof/Laws/Bits.lean ====
section
/-! SUPPORT. Laws of the word arithmetic and of the bit-field helpers: splitting and joining bytes and nibbles,
widening, and address arithmetic modulo 65,536. -/

namespace Sys2Proof.Machine

/-! ### Readings of a word -/

@[simp] theorem unsigned16_u16 (n : Int) : unsigned16 (u16 n) = n % 65536 := by
  simp only [unsigned16, u16, BitVec.toNat_ofInt]
  omega

@[simp] theorem u16_unsigned16 (v : Word) : u16 (unsigned16 v) = v := by simp [unsigned16, u16]

theorem u16_add (m n : Int) : u16 (m + n) = u16 m + u16 n := by simp [u16, BitVec.ofInt_add]

theorem u16_mul (m n : Int) : u16 (m * n) = u16 m * u16 n := by simp [u16, BitVec.ofInt_mul]

theorem u16_sub (m n : Int) : u16 (m - n) = u16 m - u16 n := by
  rw [Int.sub_eq_add_neg, u16_add, BitVec.sub_eq_add_neg]
  simp [u16, BitVec.ofInt_neg]

/-- `u16` of the signed reading gives the pattern back. -/
@[simp] theorem u16_s16 (v : Word) : u16 (s16 v) = v := by simp [u16, s16]

theorem unsigned16_nonneg (v : Word) : 0 ≤ unsigned16 v := by simp [unsigned16]

theorem unsigned16_lt (v : Word) : unsigned16 v < 65536 := by
  have := v.isLt
  simp only [unsigned16]
  omega

/-- The two readings differ by 65,536 where bit 15 is set (R6). -/
theorem s16_eq (v : Word) : s16 v = if v.toNat < 32768 then unsigned16 v else unsigned16 v - 65536 := by
  simp only [s16, unsigned16, BitVec.toInt_eq_toNat_cond]
  split <;> split <;> omega

/-- Two integers that agree modulo 65,536 narrow to the same word. -/
theorem u16_congr {m n : Int} (h : m % 65536 = n % 65536) : u16 m = u16 n := by
  have hm := unsigned16_u16 m
  have hn := unsigned16_u16 n
  rw [← u16_unsigned16 (u16 m), ← u16_unsigned16 (u16 n), hm, hn, h]

/-! ### Address arithmetic -/

/-- `addrAdd` is addition of 16-bit words. -/
theorem addrAdd_eq (a : Word) (k : Int) : addrAdd a k = a + u16 k := by
  rw [addrAdd, u16_add, u16_unsigned16]

@[simp] theorem addrAdd_zero (a : Word) : addrAdd a 0 = a := by simp [addrAdd]

theorem addrAdd_addrAdd (a : Word) (j k : Int) : addrAdd (addrAdd a j) k = addrAdd a (j + k) := by
  simp only [addrAdd_eq, u16_add, BitVec.add_assoc]

/-- The second byte of a word never falls on the first. -/
theorem addrAdd_one_ne (a : Word) : addrAdd a 1 ≠ a := by
  rw [addrAdd_eq]
  intro h
  have : (u16 1 : Word) = 0 := by
    have h2 : a + u16 1 = a + 0 := by simpa using h
    exact (BitVec.add_right_inj a).mp h2
  exact absurd this (by decide)

/-- The addresses of different bytes of an instruction differ. -/
theorem addrAdd_inj (a : Word) {j k : Nat} (hj : j < 65536) (hk : k < 65536)
    (h : addrAdd a j = addrAdd a k) : j = k := by
  rw [addrAdd_eq, addrAdd_eq, BitVec.add_right_inj] at h
  have h2 := congrArg unsigned16 h
  simp only [unsigned16_u16] at h2
  omega

/-! ### Bytes of a word -/

/-- `hi ++ lo = hi * 256 + lo` (R43). -/
theorem toNat_wordOfBytes (lo hi : Byte) : (wordOfBytes lo hi).toNat = hi.toNat * 256 + lo.toNat := by
  have h1 := lo.isLt
  simp only [wordOfBytes, BitVec.toNat_append, Nat.shiftLeft_eq]
  rw [← Nat.shiftLeft_eq, Nat.shiftLeft_add_eq_or_of_lt h1 hi.toNat |>.symm, Nat.shiftLeft_eq]

@[simp] theorem toNat_lowByte (v : Word) : (lowByte v).toNat = v.toNat % 256 := by
  simp [lowByte]

@[simp] theorem toNat_highByte (v : Word) : (highByte v).toNat = v.toNat / 256 := by
  have := v.isLt
  simp only [highByte, BitVec.extractLsb'_toNat, Nat.shiftRight_eq_div_pow]
  omega

@[simp] theorem lowByte_wordOfBytes (lo hi : Byte) : lowByte (wordOfBytes lo hi) = lo := by
  apply BitVec.eq_of_toNat_eq
  have := lo.isLt
  rw [toNat_lowByte, toNat_wordOfBytes]
  omega

@[simp] theorem highByte_wordOfBytes (lo hi : Byte) : highByte (wordOfBytes lo hi) = hi := by
  apply BitVec.eq_of_toNat_eq
  have := lo.isLt
  rw [toNat_highByte, toNat_wordOfBytes]
  omega

@[simp] theorem wordOfBytes_bytes (v : Word) : wordOfBytes (lowByte v) (highByte v) = v := by
  apply BitVec.eq_of_toNat_eq
  rw [toNat_wordOfBytes, toNat_lowByte, toNat_highByte]
  omega

@[simp] theorem toNat_zext8 (b : Byte) : (zext8 b).toNat = b.toNat := by
  have := b.isLt
  simp only [zext8, BitVec.toNat_setWidth]
  omega

@[simp] theorem toNat_zext4 (n : Nibble) : (zext4 n).toNat = n.toNat := by
  have := n.isLt
  simp only [zext4, BitVec.toNat_setWidth]
  omega

@[simp] theorem lowByte_zext8 (b : Byte) : lowByte (zext8 b) = b := by
  apply BitVec.eq_of_toNat_eq
  have := b.isLt
  simp only [toNat_lowByte, toNat_zext8]
  omega

theorem zext8_lowByte {v : Word} (h : fits8 v = true) : zext8 (lowByte v) = v := by
  apply BitVec.eq_of_toNat_eq
  simp only [fits8, decide_eq_true_eq] at h
  simp only [toNat_zext8, toNat_lowByte]
  omega

theorem zext4_setWidth {v : Word} (h : fits4 v = true) : zext4 (v.setWidth 4) = v := by
  apply BitVec.eq_of_toNat_eq
  simp only [fits4, decide_eq_true_eq] at h
  simp only [toNat_zext4, BitVec.toNat_setWidth]
  omega

@[simp] theorem setWidth_zext4 (n : Nibble) : (zext4 n).setWidth 4 = n := by
  apply BitVec.eq_of_toNat_eq
  have := n.isLt
  simp only [BitVec.toNat_setWidth, toNat_zext4]
  omega

@[simp] theorem fits8_zext8 (b : Byte) : fits8 (zext8 b) = true := by
  have := b.isLt
  simp only [fits8, toNat_zext8, decide_eq_true_eq]
  omega

@[simp] theorem fits4_zext4 (n : Nibble) : fits4 (zext4 n) = true := by
  have := n.isLt
  simp only [fits4, toNat_zext4, decide_eq_true_eq]
  omega

/-! ### Nibbles of a byte -/

/-- `[f|g]` with `f` in bits 7:4 is `f * 16 + g` (R71). -/
theorem toNat_byteOfNibbles_firstHigh (f g : Nibble) :
    (byteOfNibbles .firstHigh f g).toNat = f.toNat * 16 + g.toNat := by
  have h := g.isLt
  simp only [byteOfNibbles, BitVec.toNat_append]
  rw [← Nat.shiftLeft_add_eq_or_of_lt h f.toNat, Nat.shiftLeft_eq]

theorem toNat_byteOfNibbles_firstLow (f g : Nibble) :
    (byteOfNibbles .firstLow f g).toNat = g.toNat * 16 + f.toNat :=
  toNat_byteOfNibbles_firstHigh g f

theorem toNat_highNibble (b : Byte) : (b.extractLsb' 4 4).toNat = b.toNat / 16 := by
  have := b.isLt
  simp only [BitVec.extractLsb'_toNat, Nat.shiftRight_eq_div_pow]
  omega

theorem toNat_lowNibble (b : Byte) : (b.extractLsb' 0 4).toNat = b.toNat % 16 := by simp

@[simp] theorem firstNibble_byteOfNibbles (o : Config.NibbleOrder) (f g : Nibble) :
    firstNibble o (byteOfNibbles o f g) = f := by
  apply BitVec.eq_of_toNat_eq
  have hf := f.isLt
  have hg := g.isLt
  cases o
  · rw [firstNibble, toNat_highNibble, toNat_byteOfNibbles_firstHigh]
    omega
  · rw [firstNibble, toNat_lowNibble, toNat_byteOfNibbles_firstLow]
    omega

@[simp] theorem secondNibble_byteOfNibbles (o : Config.NibbleOrder) (f g : Nibble) :
    secondNibble o (byteOfNibbles o f g) = g := by
  apply BitVec.eq_of_toNat_eq
  have hf := f.isLt
  have hg := g.isLt
  cases o
  · rw [secondNibble, toNat_lowNibble, toNat_byteOfNibbles_firstHigh]
    omega
  · rw [secondNibble, toNat_highNibble, toNat_byteOfNibbles_firstLow]
    omega

@[simp] theorem byteOfNibbles_nibbles (o : Config.NibbleOrder) (b : Byte) :
    byteOfNibbles o (firstNibble o b) (secondNibble o b) = b := by
  apply BitVec.eq_of_toNat_eq
  cases o
  · rw [toNat_byteOfNibbles_firstHigh, firstNibble, secondNibble, toNat_highNibble, toNat_lowNibble]
    omega
  · rw [toNat_byteOfNibbles_firstLow, firstNibble, secondNibble, toNat_highNibble, toNat_lowNibble]
    omega

/-! ### The same operations as `BitVec` writes them -/

theorem lowByte_eq (v : Word) : lowByte v = BitVec.ofNat 8 v.toNat := by
  apply BitVec.eq_of_toNat_eq
  simp

theorem zext8_eq (b : Byte) : zext8 b = BitVec.ofNat 16 b.toNat := by
  apply BitVec.eq_of_toNat_eq
  have := b.isLt
  simp only [toNat_zext8, BitVec.toNat_ofNat]
  omega

theorem wordOfBytes_eq (lo hi : Byte) : wordOfBytes lo hi = BitVec.ofNat 16 (hi.toNat * 256 + lo.toNat) := by
  apply BitVec.eq_of_toNat_eq
  have := lo.isLt
  have := hi.isLt
  rw [toNat_wordOfBytes, BitVec.toNat_ofNat]
  omega

theorem u16_natCast (n : Nat) : u16 (n : Int) = BitVec.ofNat 16 n := by simp [u16]

theorem addrAdd_natCast (a : Word) (k : Nat) : addrAdd a k = a + BitVec.ofNat 16 k := by
  rw [addrAdd_eq, u16_natCast]

theorem addrAdd_one (a : Word) : addrAdd a 1 = a + 1 := addrAdd_natCast a 1

theorem addrAdd_two (a : Word) : addrAdd a 2 = a + 2 := addrAdd_natCast a 2

theorem addrAdd_neg_one (a : Word) : addrAdd a (-1) = a - 1 := by
  rw [addrAdd_eq, show (u16 (-1) : Word) = -1 by decide, BitVec.sub_eq_add_neg]

theorem addrAdd_neg_two (a : Word) : addrAdd a (-2) = a - 2 := by
  rw [addrAdd_eq, show (u16 (-2) : Word) = -2 by decide, BitVec.sub_eq_add_neg]

end Sys2Proof.Machine
end

