-- ==== Sys2Proof/Laws/Alu.lean ====
section
/-! SUPPORT. Laws of the 16-bit functions and of the six relations. -/

namespace Sys2Proof.Machine

theorem aluAdd_eq (p q : Word) : aluAdd p q = p + q := by rw [aluAdd, u16_add, u16_unsigned16, u16_unsigned16]

theorem aluSub_eq (p q : Word) : aluSub p q = p - q := by rw [aluSub, u16_sub, u16_unsigned16, u16_unsigned16]

theorem aluMul_eq (p q : Word) : aluMul p q = p * q := by rw [aluMul, u16_mul, u16_unsigned16, u16_unsigned16]

/-- A comparison writes 0 or 1, nothing else (R200). -/
theorem truthWord_cases (b : Bool) : truthWord b = 0x0000 ∨ truthWord b = 0x0001 := by cases b <;> decide

theorem truthWord_eq_zero_iff (b : Bool) : truthWord b = 0 ↔ b = false := by cases b <;> decide

/-- The complement of a relation writes the complement of its value. -/
theorem truthWord_not (b : Bool) : truthWord (!b) = 0x0001 - truthWord b := by cases b <;> decide

/-- An amount below 16 is taken as it is, whatever `SHIFT_MODE` (R187). -/
theorem aluLsh_lt (m : Config.ShiftMode) (v : Word) {n : Word} (h : n.toNat < 16) :
    aluLsh m v n = shiftLeft v n.toNat := by cases m <;> exact if_pos h

theorem aluRshu_lt (m : Config.ShiftMode) (v : Word) {n : Word} (h : n.toNat < 16) :
    aluRshu m v n = shiftRightUnsigned v n.toNat := by cases m <;> exact if_pos h

theorem aluRshs_lt (m : Config.ShiftMode) (v : Word) {n : Word} (h : n.toNat < 16) :
    aluRshs m v n = shiftRightSigned v n.toNat := by cases m <;> exact if_pos h

/-- Bit 15 is the sign (R6). -/
theorem msb_eq_s16_neg (v : Word) : v.msb = decide (s16 v < 0) := by rw [BitVec.msb_eq_toInt, s16]

/-- DIVS as `BitVec` divides (R168). -/
theorem aluDivs_trunc_eq (p q : Word) :
    aluDivs .trunc p q =
      if q = 0 then if p = 0 then 0x0000 else if p.msb then 0x8000 else 0x7FFF else p.sdiv q := by
  unfold aluDivs
  split
  · rw [msb_eq_s16_neg]
    by_cases h : p = 0
    · subst h
      decide
    · have hb : ¬ p = 0#16 := h
      have hz : s16 p ≠ 0 := by
        intro h2
        apply h
        rw [← u16_s16 p, h2]
        rfl
      rcases lt_trichotomy (s16 p) 0 with h1 | h1 | h1
      · simp [h1, hb, not_lt.mpr h1.le]
      · exact absurd h1 hz
      · simp [h1, hb, not_lt.mpr h1.le]
  · apply BitVec.eq_of_toInt_eq
    rw [BitVec.toInt_sdiv]
    simp [signedQuotient, u16, s16, BitVec.toInt_ofInt]

/-- REMS as `BitVec` divides (R170). -/
theorem aluRems_trunc_eq (p q : Word) : aluRems .trunc p q = if q = 0 then p else p.srem q := by
  unfold aluRems
  split
  · rfl
  · apply BitVec.eq_of_toInt_eq
    rw [BitVec.toInt_srem]
    have : s16 p - s16 q * (s16 p).tdiv (s16 q) = (s16 p).tmod (s16 q) := by
      rw [Int.tmod_def]
    simp only [signedQuotient, this]
    have h : s16 p = p.toInt := rfl
    have h' : s16 q = q.toInt := rfl
    rw [h, h', ← BitVec.toInt_srem, u16, BitVec.ofInt_toInt]

/-- DIVU on natural numbers (R169). -/
theorem aluDivu_eq (p q : Word) :
    aluDivu p q =
      if q = 0 then if p = 0 then 0x0000 else 0xFFFF else BitVec.ofNat 16 (p.toNat / q.toNat) := by
  unfold aluDivu unsigned16
  rw [← Int.natCast_ediv, u16_natCast]

/-- REMU on natural numbers (R171). -/
theorem aluRemu_eq (p q : Word) :
    aluRemu p q = if q = 0 then p else BitVec.ofNat 16 (p.toNat % q.toNat) := by
  unfold aluRemu unsigned16
  rw [← Int.natCast_emod, u16_natCast]

theorem shiftLeft_eq (v : Word) (n : Nat) : shiftLeft v n = v <<< n := by
  apply BitVec.eq_of_toNat_eq
  simp only [shiftLeft, unsigned16]
  rw [← Int.natCast_mul, u16_natCast]
  simp [Nat.shiftLeft_eq]

theorem shiftRightUnsigned_eq (v : Word) (n : Nat) : shiftRightUnsigned v n = v >>> n := by
  apply BitVec.eq_of_toNat_eq
  simp only [shiftRightUnsigned, unsigned16]
  rw [← Int.natCast_ediv, u16_natCast]
  have := v.isLt
  have h := Nat.div_le_self v.toNat (2 ^ n)
  simp [Nat.shiftRight_eq_div_pow]
  omega

theorem shiftRightSigned_eq (v : Word) (n : Nat) : shiftRightSigned v n = v.sshiftRight n := by
  simp only [shiftRightSigned, s16, u16, BitVec.sshiftRight, Int.shiftRight_eq_div_pow]

/-- LSH by any amount (R187). -/
theorem aluLsh_saturate_eq (v n : Word) : aluLsh .saturate v n = v <<< n.toNat := by
  unfold aluLsh
  split
  · exact shiftLeft_eq _ _
  · simp only
    rw [BitVec.shiftLeft_eq_zero (by omega)]
    rfl

/-- RSHU by any amount (R187). -/
theorem aluRshu_saturate_eq (v n : Word) : aluRshu .saturate v n = v >>> n.toNat := by
  unfold aluRshu
  split
  · exact shiftRightUnsigned_eq _ _
  · simp only
    rw [BitVec.ushiftRight_eq_zero (by omega)]
    rfl

/-- RSHS by any amount (R187). -/
theorem aluRshs_saturate_eq (v n : Word) : aluRshs .saturate v n = v.sshiftRight n.toNat := by
  unfold aluRshs
  split
  · exact shiftRightSigned_eq _ _
  · rename_i h
    simp only
    have h1 := BitVec.toInt_lt (x := v)
    have h2 := BitVec.le_toInt (x := v)
    rw [← shiftRightSigned_eq, shiftRightSigned]
    have hp : (65536 : Int) ≤ ((2 ^ n.toNat : Nat) : Int) := by
      have := Nat.pow_le_pow_right (n := 2) (by decide) (not_lt.mp h)
      exact_mod_cast this
    have h3 : s16 v = v.toInt := rfl
    split
    · rename_i hn
      have : s16 v / ((2 ^ n.toNat : Nat) : Int) = -1 := by
        rw [Int.ediv_eq_iff_of_pos (by omega)]; omega
      rw [this]
      rfl
    · rename_i hn
      have : s16 v / ((2 ^ n.toNat : Nat) : Int) = 0 := by
        apply Int.ediv_eq_zero_of_lt <;> omega
      rw [this]
      rfl

theorem compareEq_eq (p q : Word) : compareEq p q = if p = q then 1 else 0 := by
  unfold compareEq truthWord
  split <;> split <;> simp_all

theorem compareNe_eq (p q : Word) : compareNe p q = if p = q then 0 else 1 := by
  unfold compareNe truthWord
  split <;> split <;> simp_all

theorem compareLts_eq (p q : Word) : compareLts p q = if p.slt q then 1 else 0 := by
  simp only [compareLts, truthWord, BitVec.slt, s16]
  by_cases h : p.toInt < q.toInt <;> simp [h]

theorem compareGes_eq (p q : Word) : compareGes p q = if p.slt q then 0 else 1 := by
  simp only [compareGes, truthWord, BitVec.slt, s16]
  by_cases h : p.toInt < q.toInt <;> simp [h]

theorem compareLtu_eq (p q : Word) : compareLtu p q = if p.toNat < q.toNat then 1 else 0 := by
  simp only [compareLtu, truthWord, unsigned16, decide_eq_true_eq, Int.ofNat_lt]

theorem compareGeu_eq (p q : Word) : compareGeu p q = if p.toNat < q.toNat then 0 else 1 := by
  simp only [compareGeu, truthWord, unsigned16]
  by_cases h : p.toNat < q.toNat <;> simp [h]

end Sys2Proof.Machine
end

