-- ==== Sys2Proof/Laws/Decode.lean ====
section
/-! SUPPORT. Laws of the encoding tables, of the layouts, of the decoder and of the encoder. -/

namespace Sys2Proof

open Machine

/-! ### The tables -/

@[simp] theorem regOfNum_regNum (r : Reg) : regOfNum (regNum r) = r := by cases r <;> rfl

@[simp] theorem regNum_regOfNum (n : Nibble) : regNum (regOfNum n) = n := by
  revert n
  decide

@[simp] theorem opcodeOfByte_code (v : Opcode) : opcodeOfByte v.code = some v := by cases v <;> rfl

/-- The table has 70 rows. -/
theorem opcodeTable_length : opcodeTable.length = 70 := rfl

/-- The opcode byte of the variant in row `k` is `k`. -/
theorem code_of_row (k : Nat) (v : Opcode) (h : opcodeTable[k]? = some v) : v.code = BitVec.ofNat 8 k := by
  have hk : k < 70 := by
    have := (List.getElem?_eq_some_iff.mp h).1
    rwa [opcodeTable_length] at this
  revert v
  have key : ∀ k : Fin 70, opcodeTable[k.val]?.all (fun v => v.code == BitVec.ofNat 8 k.val) := by decide
  intro v h
  have := key ⟨k, hk⟩
  rw [h] at this
  simpa using this

/-- An opcode byte selects the row of that number (R91). -/
theorem opcodeOfByte_eq_row (b : Byte) : opcodeOfByte b = opcodeTable[b.toNat]? := by
  by_cases h : b.toNat < 70
  · have key : ∀ k : Fin 70, opcodeOfByte (BitVec.ofNat 8 k.val) = opcodeTable[k.val]? := by decide
    simpa using key ⟨b.toNat, h⟩
  · rw [opcodeOfByte, if_neg (show ¬ b.toNat < params.numOpcodes from h),
      List.getElem?_eq_none (by rw [opcodeTable_length]; omega)]

/-- The opcode byte that selects a variant is that variant's. -/
theorem code_of_opcodeOfByte {b : Byte} {v : Opcode} (h : opcodeOfByte b = some v) : v.code = b := by
  rw [opcodeOfByte_eq_row] at h
  simpa using code_of_row b.toNat v h

/-- An opcode byte has a row exactly below 0x46 (R92). -/
theorem opcodeOfByte_eq_none_iff (b : Byte) : opcodeOfByte b = none ↔ 0x46 ≤ b.toNat := by
  rw [opcodeOfByte_eq_row, List.getElem?_eq_none_iff, opcodeTable_length]

/-- The length that the opcode byte of a variant decides. -/
@[simp] theorem lengthOfByte_code (v : Opcode) : lengthOfByte v.code = v.layout.numBytes := by
  simp [lengthOfByte]

theorem numBytes_pos (l : Layout) : 1 ≤ l.numBytes := by cases l <;> decide

theorem numBytes_le_five (l : Layout) : l.numBytes ≤ 5 := by cases l <;> decide

theorem lengthOfByte_pos (b : Byte) : 1 ≤ lengthOfByte b := by
  unfold lengthOfByte
  split
  · exact numBytes_pos _
  · exact Nat.le_refl 1

theorem lengthOfByte_le_five (b : Byte) : lengthOfByte b ≤ 5 := by
  unfold lengthOfByte
  split
  · exact numBytes_le_five _
  · decide

/-! ### Registers in bytes -/

@[simp] theorem regHigh_regByte (a b : Reg) : regHigh (regByte a b) = a := by simp [regHigh, regByte]
@[simp] theorem regLow_regByte (a b : Reg) : regLow (regByte a b) = b := by simp [regLow, regByte]
@[simp] theorem regHigh_regPadByte (a : Reg) : regHigh (regPadByte a) = a := by simp [regHigh, regPadByte]

/-- A byte that names two registers is the byte of those registers. -/
@[simp] theorem regByte_regs (b : Byte) : regByte (regHigh b) (regLow b) = b := by
  simp [regByte, regHigh, regLow]

/-- A byte whose second field is 0 is the byte of its register and a pad. -/
theorem regPadByte_reg {b : Byte} (h : secondNibble params.nibbleOrder b = 0) : regPadByte (regHigh b) = b := by
  rw [regPadByte, regHigh, regNum_regOfNum, ← h, byteOfNibbles_nibbles]

/-! ### Layouts -/

/-- The fields hold NL and 0 where the layout has no field, and a narrow immediate fits its field. -/
def Layout.fits (l : Layout) (f : Fields) : Prop :=
  match l with
  | .none => f = {}
  | .regA => f = { a := f.a }
  | .regARegB => f = { a := f.a, b := f.b }
  | .regARegBRegC => f = { a := f.a, b := f.b, c := f.c }
  | .immA8 => f = { immA := f.immA } ∧ fits8 f.immA = true
  | .immA16 => f = { immA := f.immA }
  | .regAImmA8 => f = { a := f.a, immA := f.immA } ∧ fits8 f.immA = true
  | .regAImmA16 => f = { a := f.a, immA := f.immA }
  | .regARegBImmA4 => f = { a := f.a, b := f.b, immA := f.immA } ∧ fits4 f.immA = true
  | .regARegBImmA16 => f = { a := f.a, b := f.b, immA := f.immA }
  | .immA16ImmB16 => f = { immA := f.immA, immB := f.immB }

/-- Whatever the bytes, the fields read from them fit the layout. -/
theorem fits_unpack (l : Layout) (b : Nat → Byte) : l.fits (l.unpack b) := by
  cases l <;> simp [Layout.fits, Layout.unpack]

/-- The packed fields fill the layout after the opcode byte. -/
theorem length_pack (l : Layout) (f : Fields) : (l.pack f).length + 1 = l.numBytes := by cases l <;> rfl

/-- Reading back what was packed: no bit of a field is dropped or moved. -/
theorem unpack_pack {l : Layout} {f : Fields} (h : l.fits f) {b : Nat → Byte}
    (hb : ∀ k, k < (l.pack f).length → b (k + 1) = (l.pack f).getD k 0) : l.unpack b = f := by
  obtain ⟨ra, rb, rc, immA, immB⟩ := f
  cases l <;> simp only [Layout.fits, Fields.mk.injEq, true_and, and_true] at h <;>
    simp only [Layout.pack, List.length_cons, List.length_nil] at hb <;>
    (try have h0 := hb 0 (by decide)) <;> (try have h1 := hb 1 (by decide)) <;>
    (try have h2 := hb 2 (by decide)) <;> (try have h3 := hb 3 (by decide)) <;> clear hb <;>
    simp_all [Layout.unpack, zext8_lowByte, zext4_setWidth]

/-- The fields of a layout depend on the instruction's own bytes alone (R46, R70). -/
theorem unpack_congr (l : Layout) {b c : Nat → Byte} (h : ∀ k, k < l.numBytes → b k = c k) :
    l.unpack b = l.unpack c := by
  cases l <;> simp only [Layout.unpack] <;> 
    (try rw [h 1 (by decide)]; try rw [h 2 (by decide)]; try rw [h 3 (by decide)]; try rw [h 4 (by decide)])

/-! ### Instructions, variants and fields -/

/-- An instruction is its variant with its fields. -/
theorem build_fields (i : Instr) : i.opcode.build i.fields = i := by cases i <;> rfl

/-- Building with a variant gives an instruction of that variant. -/
@[simp] theorem opcode_build (v : Opcode) (f : Fields) : (v.build f).opcode = v := by cases v <;> rfl

/-- Building keeps the fields that the layout has. -/
theorem fields_build {v : Opcode} {f : Fields} (h : v.layout.fits f) : (v.build f).fields = f := by
  cases v <;> first | exact h.symm | exact h.1.symm

/-- Legal operands are the ones that fit the layout. -/
theorem fits_fields_iff (i : Instr) : i.opcode.layout.fits i.fields ↔ i.wf = true := by
  cases i <;> simp [Layout.fits, Instr.opcode, Opcode.layout, Instr.fields, Instr.wf]

theorem length_encode (i : Instr) : (encode i).length = i.length := by
  simp only [encode, List.length_cons, Instr.length, length_pack]

/-- The first byte of an encoding is its opcode byte. -/
theorem encode_head (i : Instr) (k : Byte) : (encode i).getD 0 k = i.opcode.code := rfl

/-- Building with a variant gives an instruction of that variant's length. -/
theorem length_build (v : Opcode) (f : Fields) : (v.build f).length = v.layout.numBytes := by
  simp [Instr.length]

/-! ### The decoder -/

/-- The decoder looks at the bytes of the instruction and at no others (R46). -/
theorem decodeAt_congr {b c : Nat → Byte} (h : ∀ k, k < lengthOfByte (b 0) → b k = c k) :
    decodeAt b = decodeAt c := by
  have h0 : b 0 = c 0 := h 0 (lengthOfByte_pos _)
  unfold decodeAt
  rw [← h0]
  cases hv : opcodeOfByte (b 0) with
  | none => rfl
  | some v =>
    have hl : lengthOfByte (b 0) = v.layout.numBytes := by simp [lengthOfByte, hv]
    simp only [unpack_congr v.layout fun k hk => h k (hl ▸ hk)]

/-- The length of the decoded instruction is the one its opcode byte decides. -/
theorem length_decodeAt (b : Nat → Byte) : (decodeAt b).length = lengthOfByte (b 0) := by
  unfold decodeAt lengthOfByte
  cases opcodeOfByte (b 0) with
  | none => rfl
  | some v => exact length_build v _

/-- What the decoder gives is always well formed. -/
theorem wf_decodeAt (b : Nat → Byte) : (decodeAt b).wf = true := by
  unfold decodeAt
  cases opcodeOfByte (b 0) with
  | none => rfl
  | some v =>
    have h := fits_unpack v.layout b
    rw [← fits_fields_iff, opcode_build, fields_build h]
    exact h

/-- An opcode byte without a row decodes as NOP. -/
theorem decodeAt_unknown {b : Nat → Byte} (h : 0x46 ≤ (b 0).toNat) : decodeAt b = .nop := by
  rw [decodeAt, (opcodeOfByte_eq_none_iff _).mpr h]

/-- What `decode` answers, once for all: the instruction, its length, and the bytes after it. -/
theorem decode_cons (op : Byte) (rest : List Byte) :
    decode (op :: rest) =
      if lengthOfByte op ≤ rest.length + 1 then
        .ok (decodeAt (fun k => (op :: rest).getD k 0), (op :: rest).drop (lengthOfByte op))
      else .error (.truncated (lengthOfByte op) (rest.length + 1)) := rfl

/-- Bytes that begin with the encoding of a well-formed instruction decode to it. -/
theorem decodeAt_eq_of_encode {b : Nat → Byte} {i : Instr} (hw : i.wf = true)
    (h : ∀ k, k < i.length → b k = (encode i).getD k 0) : decodeAt b = i := by
  have h0 := h 0 (numBytes_pos _)
  rw [encode_head] at h0
  unfold decodeAt
  rw [h0, opcodeOfByte_code]
  simp only
  rw [unpack_pack ((fits_fields_iff i).mpr hw), build_fields]
  intro k hk
  have hl := length_pack i.opcode.layout i.fields
  rw [h (k + 1) (by rw [Instr.length]; omega)]
  rfl

/-- A byte whose second field is not 0 is not the byte of a register and a pad. -/
theorem regPadByte_regHigh_iff (b : Byte) :
    regPadByte (regHigh b) = b ↔ secondNibble params.nibbleOrder b = 0 := by
  refine ⟨fun h => ?_, regPadByte_reg⟩
  have := congrArg (secondNibble params.nibbleOrder) h
  rw [regPadByte, secondNibble_byteOfNibbles] at this
  exact this.symm

end Sys2Proof
end

