-- ==== Sys2Proof/Laws/Memory.lean ====
section
/-! SUPPORT. Laws of memory: read after write, the canonical form is kept by every operation, and memories in
canonical form that read alike are equal. -/

namespace Sys2Proof.Machine

/-! ### Read after write -/

theorem Memory.byteAt_filter_ne (m : Memory) {k j : Nat} (h : j ≠ k) :
    Memory.byteAt (m.filter fun c => c.1 ≠ k) j = m.byteAt j := by
  induction m with
  | nil => rfl
  | cons c m ih =>
    obtain ⟨a, b⟩ := c
    by_cases ha : a = k
    · rw [List.filter_cons_of_neg (by simp [ha]), ih]
      simp [Memory.byteAt, ha, Ne.symm h]
    · rw [List.filter_cons_of_pos (by simp [ha]), Memory.byteAt, Memory.byteAt, ih]

theorem Memory.byteAt_filter_same (m : Memory) (k : Nat) :
    Memory.byteAt (m.filter fun c => c.1 ≠ k) k = Memory.fill := by
  induction m with
  | nil => rfl
  | cons c m ih =>
    obtain ⟨a, b⟩ := c
    by_cases ha : a = k
    · rw [List.filter_cons_of_neg (by simp [ha]), ih]
    · rw [List.filter_cons_of_pos (by simp [ha]), Memory.byteAt, if_neg ha, ih]

theorem Memory.byteAt_insertCell_ne (m : Memory) {k j : Nat} (h : j ≠ k) (v : Byte) :
    (Memory.insertCell (k, v) m).byteAt j = m.byteAt j := by
  induction m with
  | nil => simp [Memory.insertCell, Memory.byteAt, Ne.symm h]
  | cons c m ih =>
    obtain ⟨a, b⟩ := c
    simp only [Memory.insertCell]
    split
    · simp [Memory.byteAt, Ne.symm h]
    · simp [Memory.byteAt, ih]

theorem Memory.byteAt_insertCell_same (m : Memory) {k : Nat} (v : Byte) (h : ∀ c ∈ m, c.1 ≠ k) :
    (Memory.insertCell (k, v) m).byteAt k = v := by
  induction m with
  | nil => simp [Memory.insertCell, Memory.byteAt]
  | cons c m ih =>
    obtain ⟨a, b⟩ := c
    have ha : a ≠ k := h (a, b) (by simp)
    simp only [Memory.insertCell]
    split
    · simp [Memory.byteAt]
    · simp [Memory.byteAt, ha, ih fun c hc => h c (by simp [hc])]

/-- Reading any address after a byte is set. -/
theorem Memory.byteAt_setByte (m : Memory) (k j : Nat) (v : Byte) :
    (m.setByte k v).byteAt j = if j = k then v else m.byteAt j := by
  unfold Memory.setByte
  by_cases hj : j = k
  · subst hj
    rw [if_pos rfl]
    split
    · next hv => rw [Memory.byteAt_filter_same, hv]
    · exact Memory.byteAt_insertCell_same _ _ (by simp)
  · rw [if_neg hj]
    split
    · exact Memory.byteAt_filter_ne m hj
    · rw [Memory.byteAt_insertCell_ne _ hj, Memory.byteAt_filter_ne m hj]

/-- Reading any address after a run of bytes is set. -/
theorem Memory.byteAt_setBytes (vs : List Byte) : ∀ (m : Memory) (k j : Nat),
    (m.setBytes k vs).byteAt j =
      if k ≤ j ∧ j < k + vs.length then vs.getD (j - k) 0 else m.byteAt j := by
  induction vs with
  | nil => intro m k j; simp [Memory.setBytes]
  | cons v vs ih =>
    intro m k j
    simp only [Memory.setBytes, ih, Memory.byteAt_setByte, List.length_cons]
    by_cases h : k + 1 ≤ j ∧ j < k + 1 + vs.length
    · rw [if_pos h, if_pos (by omega), show j - k = (j - (k + 1)) + 1 by omega, List.getD_cons_succ]
    · rw [if_neg h]
      by_cases hj : j = k
      · subst hj
        simp
      · rw [if_neg hj, if_neg (by omega)]

/-! ### The canonical form -/

theorem Memory.wf_nil : Memory.wf [] := by simp [Memory.wf]

theorem Memory.wf_filter {m : Memory} (h : m.wf) (p : Host.Cell → Bool) : Memory.wf (m.filter p) :=
  ⟨h.1.filter p, fun c hc => h.2 c (List.mem_filter.mp hc).1⟩

theorem Memory.mem_insertCell {c d : Host.Cell} {m : Memory} :
    d ∈ Memory.insertCell c m ↔ d = c ∨ d ∈ m := by
  induction m with
  | nil => simp [Memory.insertCell]
  | cons e m ih =>
    simp only [Memory.insertCell]
    split
    · simp
    · simp only [List.mem_cons, ih]
      tauto

theorem Memory.pairwise_insertCell {c : Host.Cell} {m : Memory}
    (h : m.Pairwise (fun c d => c.1 < d.1)) (hc : ∀ d ∈ m, d.1 ≠ c.1) :
    (Memory.insertCell c m).Pairwise (fun c d => c.1 < d.1) := by
  induction m with
  | nil => simp [Memory.insertCell]
  | cons e m ih =>
    obtain ⟨he, hm⟩ := List.pairwise_cons.mp h
    simp only [Memory.insertCell]
    split
    · next hlt =>
      refine List.pairwise_cons.mpr ⟨fun d hd => ?_, h⟩
      rcases List.mem_cons.mp hd with rfl | hd
      · exact hlt
      · exact lt_trans hlt (he d hd)
    · next hlt =>
      refine List.pairwise_cons.mpr ⟨fun d hd => ?_, ih hm fun d hd => hc d (by simp [hd])⟩
      rcases Memory.mem_insertCell.mp hd with rfl | hd
      · have := hc e (by simp)
        omega
      · exact he d hd

/-- Setting a byte of the address space keeps the canonical form. -/
theorem Memory.wf_setByte {m : Memory} (h : m.wf) {k : Nat} (hk : k < 65536) (v : Byte) :
    (m.setByte k v).wf := by
  have hf := Memory.wf_filter h (fun c => c.1 ≠ k)
  unfold Memory.setByte
  split
  · exact hf
  · next hv =>
    refine ⟨Memory.pairwise_insertCell hf.1 (by simp), fun c hc => ?_⟩
    rcases Memory.mem_insertCell.mp hc with rfl | hc
    · exact ⟨hk, hv⟩
    · exact hf.2 c hc

theorem Memory.wf_setBytes (vs : List Byte) : ∀ {m : Memory}, m.wf → ∀ {k : Nat}, k + vs.length ≤ 65536 →
    (m.setBytes k vs).wf := by
  induction vs with
  | nil => intro m h k _; exact h
  | cons v vs ih =>
    intro m h k hk
    simp only [List.length_cons] at hk
    exact ih (Memory.wf_setByte h (by omega) v) (by omega)

theorem Memory.byteAt_eq_fill {m : Memory} {k : Nat} (h : ∀ c ∈ m, k < c.1) : m.byteAt k = Memory.fill := by
  induction m with
  | nil => rfl
  | cons c m ih =>
    obtain ⟨a, b⟩ := c
    have : k < a := h (a, b) (by simp)
    simp [Memory.byteAt, ih fun c hc => h c (by simp [hc]), show a ≠ k by omega]

/-- Equal memories are equal data: two memories in canonical form that read alike are one list. -/
theorem Memory.ext_byteAt : ∀ {m n : Memory}, m.wf → n.wf → (∀ k, m.byteAt k = n.byteAt k) → m = n := by
  intro m
  induction m with
  | nil =>
    intro n _ hn h
    cases n with
    | nil => rfl
    | cons c n =>
      have h1 := h c.1
      simp only [Memory.byteAt, if_pos] at h1
      exact absurd h1.symm (hn.2 c (by simp)).2
  | cons c m ih =>
    intro n hm hn h
    cases n with
    | nil =>
      have h1 := h c.1
      simp only [Memory.byteAt, if_pos] at h1
      exact absurd h1 (hm.2 c (by simp)).2
    | cons d n =>
      obtain ⟨a, x⟩ := c
      obtain ⟨b, y⟩ := d
      obtain ⟨hm1, hm2⟩ := List.pairwise_cons.mp hm.1
      obtain ⟨hn1, hn2⟩ := List.pairwise_cons.mp hn.1
      have key : a = b := by
        rcases Nat.lt_trichotomy a b with hlt | heq | hgt
        · have h1 := h a
          rw [Memory.byteAt, if_pos rfl, Memory.byteAt, if_neg (by omega),
            Memory.byteAt_eq_fill fun c hc => lt_trans hlt (hn1 c hc)] at h1
          exact absurd h1 (hm.2 (a, x) (by simp)).2
        · exact heq
        · have h1 := h b
          rw [Memory.byteAt, if_neg (by omega), Memory.byteAt, if_pos rfl,
            Memory.byteAt_eq_fill fun c hc => lt_trans hgt (hm1 c hc)] at h1
          exact absurd h1.symm (hn.2 (b, y) (by simp)).2
      subst key
      have hx : x = y := by simpa [Memory.byteAt] using h a
      subst hx
      refine congrArg _ (ih ⟨hm2, fun c hc => hm.2 c (by simp [hc])⟩ ⟨hn2, fun c hc => hn.2 c (by simp [hc])⟩
        fun k => ?_)
      by_cases hk : a = k
      · subst hk
        rw [Memory.byteAt_eq_fill hm1, Memory.byteAt_eq_fill hn1]
      · simpa [Memory.byteAt, hk] using h k

end Sys2Proof.Machine
end

