-- ==== Sys2Proof/Laws/State.lean ====
section
/-! SUPPORT. One lemma per field per update: what a register write, a byte write, and the operations made of
them do to each register and each byte. -/

namespace Sys2Proof.Machine

/-! ### Record updates -/

@[simp] theorem writeReg_mem (s : State) (r : Reg) (v : Word) : (s.writeReg r v).mem = s.mem := rfl
@[simp] theorem writeReg_regs (s : State) (r : Reg) (v : Word) :
    (s.writeReg r v).regs = s.regs.write r v := rfl
@[simp] theorem writeByte_regs (s : State) (a : Word) (b : Byte) : (s.writeByte a b).regs = s.regs := rfl
@[simp] theorem writeByte_mem (s : State) (a : Word) (b : Byte) :
    (s.writeByte a b).mem = s.mem.setByte a.toNat b := rfl

/-! ### Registers -/

/-- Reading a register after a register write (R7, R12): NL reads 0 whatever is written. -/
theorem RegFile.read_write (f : RegFile) (d r : Reg) (v : Word) :
    (f.write d v).read r = if r = .nl then 0 else if r = d then v else f.read r := by
  cases d <;> cases r <;> rfl

theorem readReg_writeReg (s : State) (d r : Reg) (v : Word) :
    (s.writeReg d v).readReg r = if r = .nl then 0 else if r = d then v else s.readReg r :=
  RegFile.read_write s.regs d r v

@[simp] theorem readReg_nl (s : State) : s.readReg .nl = 0 := rfl

@[simp] theorem writeReg_nl (s : State) (v : Word) : s.writeReg .nl v = s := rfl

theorem readReg_writeReg_same (s : State) {d : Reg} (hd : d ≠ .nl) (v : Word) :
    (s.writeReg d v).readReg d = v := by simp [readReg_writeReg, hd]

theorem readReg_writeReg_ne (s : State) {d r : Reg} (h : r ≠ d) (v : Word) :
    (s.writeReg d v).readReg r = s.readReg r := by
  rw [readReg_writeReg, if_neg h]
  split
  · next h0 => rw [h0, readReg_nl]
  · rfl

@[simp] theorem readReg_writeByte (s : State) (r : Reg) (a : Word) (b : Byte) :
    (s.writeByte a b).readReg r = s.readReg r := rfl

/-- Two register files that read alike everywhere are equal. -/
theorem RegFile.ext_read {f g : RegFile} (h : ∀ r, f.read r = g.read r) : f = g := by
  cases f
  cases g
  have := h .ip; have := h .sp; have := h .ac
  have := h .x0; have := h .x1; have := h .x2; have := h .x3; have := h .x4; have := h .x5
  have := h .x6; have := h .x7; have := h .x8; have := h .x9; have := h .x10; have := h .x11
  simp_all [RegFile.read]

/-- Writing back what a register holds changes nothing. -/
theorem writeReg_readReg (s : State) (r : Reg) : s.writeReg r (s.readReg r) = s := by
  cases s; cases r <;> rfl

/-- The later of two writes to one register wins (R20). -/
theorem writeReg_writeReg (s : State) (r : Reg) (v w : Word) :
    (s.writeReg r v).writeReg r w = s.writeReg r w := by
  cases s; cases r <;> rfl

/-- Writes to two different registers commute. -/
theorem writeReg_comm (s : State) {r d : Reg} (h : r ≠ d) (v w : Word) :
    (s.writeReg r v).writeReg d w = (s.writeReg d w).writeReg r v := by
  cases s
  cases r <;> cases d <;> first | rfl | exact absurd rfl h

/-! ### Bytes -/

@[simp] theorem readByte_writeReg (s : State) (r : Reg) (v : Word) (a : Word) :
    (s.writeReg r v).readByte a = s.readByte a := rfl

/-- Reading a byte after a byte write: every other address is left alone. -/
theorem readByte_writeByte (s : State) (a c : Word) (b : Byte) :
    (s.writeByte a b).readByte c = if c = a then b else s.readByte c := by
  simp only [State.readByte, writeByte_mem, Memory.byteAt_setByte, BitVec.toNat_inj]

@[simp] theorem readByte_writeByte_same (s : State) (a : Word) (b : Byte) :
    (s.writeByte a b).readByte a = b := by simp [readByte_writeByte]

theorem readByte_writeByte_ne (s : State) {a c : Word} (h : c ≠ a) (b : Byte) :
    (s.writeByte a b).readByte c = s.readByte c := by simp [readByte_writeByte, h]

/-- A register write and a byte write touch different parts of the state. -/
theorem writeReg_writeByte (s : State) (r : Reg) (v a : Word) (b : Byte) :
    (s.writeReg r v).writeByte a b = (s.writeByte a b).writeReg r v := rfl

end Sys2Proof.Machine
end

