-- ==== Sys2Proof/Laws/Ops.lean ====
section
/-! SUPPORT. For each shared operation, once, all that it does: to every register, to every byte of memory, and
that it keeps memory in canonical form. -/

namespace Sys2Proof.Machine

/-! ### One register, one byte, one word -/

/-- `x[d] <- v` writes the register `d` and nothing else. -/
theorem writeReg_writesRegOnly (s : State) (d : Reg) (v : Word) : WritesRegOnly d v s (s.writeReg d v) :=
  ⟨fun r => readReg_writeReg s d r v, fun _ => rfl⟩

/-- `Mem[a] <- b` writes the byte at `a` and nothing else. -/
theorem writeByte_storesByteOnly (s : State) (a : Word) (b : Byte) : StoresByteOnly a b s (s.writeByte a b) :=
  ⟨fun _ => rfl, fun c => readByte_writeByte s a c b⟩

/-- `MemWrite(a, 1, v)` stores the low byte and nothing else (R44). -/
theorem memWrite1_storesByteOnly (s : State) (a v : Word) : StoresByteOnly a (lowByte v) s (s.memWrite1 a v) :=
  writeByte_storesByteOnly s a (lowByte v)

@[simp] theorem readReg_memWrite1 (s : State) (a v : Word) (r : Reg) :
    (s.memWrite1 a v).readReg r = s.readReg r := rfl

@[simp] theorem readReg_memWrite2 (s : State) (a v : Word) (r : Reg) :
    (s.memWrite2 a v).readReg r = s.readReg r := rfl

theorem readByte_memWrite1 (s : State) (a v c : Word) :
    (s.memWrite1 a v).readByte c = if c = a then lowByte v else s.readByte c :=
  readByte_writeByte s a c (lowByte v)

theorem readByte_memWrite2 (s : State) (a v c : Word) :
    (s.memWrite2 a v).readByte c =
      if c = a then lowByte v else if c = addrAdd a 1 then highByte v else s.readByte c := by
  simp only [State.memWrite2, readByte_writeByte]
  by_cases h : c = a
  · subst h
    simp [Ne.symm (addrAdd_one_ne c)]
  · simp [h]

/-- `MemWrite(a, 2, v)` stores the two bytes and nothing else (R45). -/
theorem memWrite2_storesWordOnly (s : State) (a v : Word) : StoresWordOnly a v s (s.memWrite2 a v) :=
  ⟨fun _ => rfl, readByte_memWrite2 s a v⟩

/-- A one-byte write stores the byte of `byteCell` (R44). -/
theorem readByte_memWrite1_of_mem (s : State) {a v c : Word} {b : Byte} (h : (c, b) ∈ byteCell a v) :
    (s.memWrite1 a v).readByte c = b := by
  obtain ⟨rfl, rfl⟩ := Prod.mk.inj (List.mem_singleton.mp h)
  rw [readByte_memWrite1, if_pos rfl]

/-- A two-byte write stores the bytes of `wordCells` (R45). -/
theorem readByte_memWrite2_of_mem (s : State) {a v c : Word} {b : Byte} (h : (c, b) ∈ wordCells a v) :
    (s.memWrite2 a v).readByte c = b := by
  rcases List.mem_cons.mp h with h | h
  · obtain ⟨rfl, rfl⟩ := Prod.mk.inj h
    rw [readByte_memWrite2, if_pos rfl]
  · obtain ⟨rfl, rfl⟩ := Prod.mk.inj (List.mem_singleton.mp h)
    rw [readByte_memWrite2, if_neg (addrAdd_one_ne a), if_pos rfl]

/-- A word read back where it was written (R43, R45). -/
@[simp] theorem memRead2_memWrite2 (s : State) (a v : Word) : (s.memWrite2 a v).memRead2 a = v := by
  simp [State.memRead2, readByte_memWrite2, addrAdd_one_ne]

/-- `MemRead(a, 1)` widens with zeros (R42). -/
theorem memRead1_eq (s : State) (a : Word) : s.memRead1 a = zext8 (s.readByte a) := rfl

/-! ### The stack -/

theorem readReg_push1 (s : State) (v : Word) (r : Reg) :
    (s.push1 v).readReg r =
      if r = .nl then 0 else if r = .sp then addrAdd (s.readReg .sp) (-1) else s.readReg r :=
  readReg_writeReg s .sp r _

theorem readByte_push1 (s : State) (v c : Word) :
    (s.push1 v).readByte c = if c = addrAdd (s.readReg .sp) (-1) then lowByte v else s.readByte c :=
  readByte_memWrite1 _ _ v c

theorem readReg_push2 (s : State) (v : Word) (r : Reg) :
    (s.push2 v).readReg r =
      if r = .nl then 0 else if r = .sp then addrAdd (s.readReg .sp) (-2) else s.readReg r :=
  readReg_writeReg s .sp r _

theorem readByte_push2 (s : State) (v c : Word) :
    (s.push2 v).readByte c =
      if c = addrAdd (s.readReg .sp) (-2) then lowByte v
      else if c = addrAdd (addrAdd (s.readReg .sp) (-2)) 1 then highByte v else s.readByte c :=
  readByte_memWrite2 _ _ v c

theorem readReg_pop1 (s : State) (d r : Reg) :
    (s.pop1 d).readReg r =
      if r = .nl then 0 else if r = d then zext8 (s.readByte (s.readReg .sp))
      else if r = .sp then addrAdd (s.readReg .sp) 1 else s.readReg r := by
  simp only [State.pop1, readReg_writeReg, memRead1_eq]
  split <;> rfl

theorem readReg_pop2 (s : State) (d r : Reg) :
    (s.pop2 d).readReg r =
      if r = .nl then 0 else if r = d then s.memRead2 (s.readReg .sp)
      else if r = .sp then addrAdd (s.readReg .sp) 2 else s.readReg r := by
  simp only [State.pop2, readReg_writeReg]
  split <;> rfl

@[simp] theorem readByte_pop1 (s : State) (d : Reg) (c : Word) : (s.pop1 d).readByte c = s.readByte c := rfl

@[simp] theorem readByte_pop2 (s : State) (d : Reg) (c : Word) : (s.pop2 d).readByte c = s.readByte c := rfl

/-! ### Control transfer -/

theorem readReg_linkAndJump (s : State) (t : Word) (r : Reg) :
    (s.linkAndJump t).readReg r =
      if r = .ip then t else if r = .ac then s.readReg .ip else s.readReg r := by
  cases r <;> rfl

@[simp] theorem readByte_linkAndJump (s : State) (t c : Word) :
    (s.linkAndJump t).readByte c = s.readByte c := rfl

theorem readReg_jumpIfZero (s : State) (c t : Word) (r : Reg) :
    (s.jumpIfZero false c t).readReg r = if r = .ip ∧ c = 0 then t else s.readReg r := by
  unfold State.jumpIfZero
  by_cases h : c = 0
  · rw [if_pos h]
    subst h
    cases r <;> simp [readReg_writeReg]
  · rw [if_neg h, if_neg fun hc => h hc.2]

@[simp] theorem readByte_jumpIfZero (s : State) (links : Bool) (c t a : Word) :
    (s.jumpIfZero links c t).readByte a = s.readByte a := by
  unfold State.jumpIfZero
  split
  · split <;> rfl
  · rfl

/-! ### Fetch -/

theorem readReg_advanceIp (s : State) (n : Nat) (r : Reg) :
    (s.advanceIp n).readReg r = if r = .ip then addrAdd (s.readReg .ip) n else s.readReg r := by
  cases r <;> rfl

@[simp] theorem readByte_advanceIp (s : State) (n : Nat) (a : Word) :
    (s.advanceIp n).readByte a = s.readByte a := rfl

@[simp] theorem fetchByte_zero (s : State) : s.fetchByte 0 = s.readByte (s.readReg .ip) := by
  simp [State.fetchByte]

@[simp] theorem readReg_storeAtIp (vs : List Byte) : ∀ (s : State) (k : Nat) (r : Reg),
    (s.storeAtIp k vs).readReg r = s.readReg r := by
  induction vs with
  | nil => intro s k r; rfl
  | cons v vs ih => intro s k r; rw [State.storeAtIp, ih, readReg_writeByte]

/-- The bytes stored at IP are the ones fetched. -/
theorem fetchByte_storeAtIp (vs : List Byte) : ∀ (s : State) (k j : Nat), k + vs.length ≤ 65536 → j < 65536 →
    (s.storeAtIp k vs).fetchByte j =
      if k ≤ j ∧ j < k + vs.length then vs.getD (j - k) 0 else s.fetchByte j := by
  induction vs with
  | nil => intro s k j _ _; simp [State.storeAtIp]
  | cons v vs ih =>
    intro s k j hk hj
    simp only [List.length_cons] at hk
    rw [State.storeAtIp, ih _ _ _ (by omega) hj]
    have hb : (s.writeByte (addrAdd (s.readReg .ip) k) v).fetchByte j = if j = k then v else s.fetchByte j := by
      simp only [State.fetchByte, readReg_writeByte, readByte_writeByte]
      by_cases h : j = k
      · simp [h]
      · rw [if_neg h, if_neg fun he => h (addrAdd_inj _ hj (by omega) he)]
    rw [hb]
    simp only [List.length_cons]
    by_cases h : k + 1 ≤ j ∧ j < k + 1 + vs.length
    · rw [if_pos h, if_pos (by omega), show j - k = (j - (k + 1)) + 1 by omega, List.getD_cons_succ]
    · rw [if_neg h]
      by_cases hjk : j = k
      · subst hjk; simp
      · rw [if_neg hjk, if_neg (by omega)]

/-- The parameters in use admit every step: none of them has the value `refuse`. -/
@[simp] theorem admission_params (s : State) : s.admission params = none := by
  simp [State.admission, params]

/-- What a step is, once for all: the decoded instruction, on the state whose IP is past it (R100). -/
theorem step_eq (s : State) : step s = exec s.fetch (s.advanceIp s.fetch.length) := by
  rw [step, admission_params, State.fetch, length_decodeAt]

/-- A step of a run, for any machine: where the step answers `t`, the run goes on from `t`. -/
theorem run_succ_of_step (M : Host.Core) (n : Nat) {s t : M.State} (h : M.step s = .next t) :
    M.run (n + 1) s = M.run n t := by rw [Host.Core.run, h]

/-! ### The canonical form of memory -/

theorem inv_reset : Memory.wf State.reset.mem := Memory.wf_nil

theorem wf_writeByte {s : State} (h : s.mem.wf) (a : Word) (b : Byte) : (s.writeByte a b).mem.wf :=
  Memory.wf_setByte h a.isLt b

theorem wf_memWrite1 {s : State} (h : s.mem.wf) (a v : Word) : (s.memWrite1 a v).mem.wf :=
  wf_writeByte h a _

theorem wf_memWrite2 {s : State} (h : s.mem.wf) (a v : Word) : (s.memWrite2 a v).mem.wf :=
  wf_writeByte (wf_writeByte h a _) _ _

theorem wf_push1 {s : State} (h : s.mem.wf) (v : Word) : (s.push1 v).mem.wf :=
  wf_memWrite1 (s := s.writeReg .sp _) h _ v

theorem wf_push2 {s : State} (h : s.mem.wf) (v : Word) : (s.push2 v).mem.wf :=
  wf_memWrite2 (s := s.writeReg .sp _) h _ v

@[simp] theorem mem_jumpIfZero (s : State) (links : Bool) (c t : Word) :
    (s.jumpIfZero links c t).mem = s.mem := by
  unfold State.jumpIfZero
  split
  · split <;> rfl
  · rfl

@[simp] theorem mem_linkAndJump (s : State) (t : Word) : (s.linkAndJump t).mem = s.mem := rfl
@[simp] theorem mem_pop1 (s : State) (d : Reg) : (s.pop1 d).mem = s.mem := rfl
@[simp] theorem mem_pop2 (s : State) (d : Reg) : (s.pop2 d).mem = s.mem := rfl
@[simp] theorem mem_advanceIp (s : State) (n : Nat) : (s.advanceIp n).mem = s.mem := rfl

theorem wf_storeAtIp (vs : List Byte) : ∀ {s : State}, s.mem.wf → ∀ k, (s.storeAtIp k vs).mem.wf := by
  induction vs with
  | nil => intro s h _; exact h
  | cons v vs ih => intro s h k; exact ih (wf_writeByte h _ v) (k + 1)

/-- Two states in canonical form that read alike are one state. -/
theorem State.ext_read {s t : State} (hs : s.mem.wf) (ht : t.mem.wf) (hr : SameRegs s t)
    (hm : SameMemory s t) : s = t := by
  have hreg : s.regs = t.regs := RegFile.ext_read fun r => (hr r).symm
  have hmem : s.mem = t.mem := by
    refine Memory.ext_byteAt hs ht fun k => ?_
    by_cases hk : k < 65536
    · have := hm (BitVec.ofNat 16 k)
      simp only [State.readByte, BitVec.toNat_ofNat] at this
      rw [show k % 2 ^ 16 = k by omega] at this
      exact this.symm
    · have high : ∀ m : Memory, m.wf → m.byteAt k = Memory.fill := by
        intro m hm
        have hlt : ∀ c ∈ m, c.1 < 65536 := fun c hc => (hm.2 c hc).1
        clear hm
        induction m with
        | nil => rfl
        | cons c m ih =>
          obtain ⟨a, b⟩ := c
          have ha : a < 65536 := hlt (a, b) (by simp)
          rw [Memory.byteAt, if_neg (by omega), ih fun c hc => hlt c (by simp [hc])]
      rw [high _ hs, high _ ht]
  cases s; cases t
  simp_all

/-! ### The driver -/

@[simp] theorem readReg_pokeAll (ps : List Driver.Poke) : ∀ (s : State) (r : Reg),
    (Driver.pokeAll ps s).readReg r = s.readReg r := by
  induction ps with
  | nil => intro s r; rfl
  | cons p ps ih => intro s r; rw [Driver.pokeAll, ih]; rfl

/-- A byte that no write of the driver names is left alone. -/
theorem readByte_pokeAll_of_not_mem (ps : List Driver.Poke) : ∀ (s : State) (a : Word),
    (∀ p ∈ ps, p.addr ≠ a) → (Driver.pokeAll ps s).readByte a = s.readByte a := by
  induction ps with
  | nil => intro s a _; rfl
  | cons p ps ih =>
    intro s a h
    rw [Driver.pokeAll, ih _ _ fun q hq => h q (by simp [hq])]
    exact readByte_writeByte_ne s (Ne.symm (h p (by simp))) p.value

theorem pokeAll_append (ps qs : List Driver.Poke) : ∀ s : State,
    Driver.pokeAll (ps ++ qs) s = Driver.pokeAll qs (Driver.pokeAll ps s) := by
  induction ps with
  | nil => intro s; rfl
  | cons p ps ih => intro s; exact ih _

theorem wf_pokeAll (ps : List Driver.Poke) : ∀ {s : State}, s.mem.wf → (Driver.pokeAll ps s).mem.wf := by
  induction ps with
  | nil => intro s h; exact h
  | cons p ps ih => intro s h; exact ih (wf_writeByte h p.addr p.value)

end Sys2Proof.Machine
end

