-- ==== Sys2Proof/Laws/PerInstr.lean ====
section
/-! SUPPORT. Families of statements made for each instruction: its encoding's length, its fields, and its place
among the overloads of its mnemonic. -/

namespace Sys2Proof.Laws

/-- The encoding of an instruction is as long as its layout says, whatever its operands (30_encoding.md R70, R115). -/
def EncodeLength.Statement (i : Instr) : Prop := (encode i).length = i.length

theorem EncodeLength.nop : EncodeLength.Statement .nop := rfl
theorem EncodeLength.setRR (d : Reg) (src : Reg) : EncodeLength.Statement (.setRR d src) := rfl
theorem EncodeLength.setRI (d : Reg) (v : Word) : EncodeLength.Statement (.setRI d v) := rfl
theorem EncodeLength.ldbRR (d : Reg) (addr : Reg) : EncodeLength.Statement (.ldbRR d addr) := rfl
theorem EncodeLength.ldbRI (d : Reg) (addr : Word) : EncodeLength.Statement (.ldbRI d addr) := rfl
theorem EncodeLength.ldwRR (d : Reg) (addr : Reg) : EncodeLength.Statement (.ldwRR d addr) := rfl
theorem EncodeLength.ldwRI (d : Reg) (addr : Word) : EncodeLength.Statement (.ldwRI d addr) := rfl
theorem EncodeLength.stbRR (addr : Reg) (src : Reg) : EncodeLength.Statement (.stbRR addr src) := rfl
theorem EncodeLength.stbRI (addr : Reg) (v : Word) : EncodeLength.Statement (.stbRI addr v) := rfl
theorem EncodeLength.stbIR (addr : Word) (src : Reg) : EncodeLength.Statement (.stbIR addr src) := rfl
theorem EncodeLength.stbII (addr : Word) (v : Word) : EncodeLength.Statement (.stbII addr v) := rfl
theorem EncodeLength.stwRR (addr : Reg) (src : Reg) : EncodeLength.Statement (.stwRR addr src) := rfl
theorem EncodeLength.stwRI (addr : Reg) (v : Word) : EncodeLength.Statement (.stwRI addr v) := rfl
theorem EncodeLength.stwIR (addr : Word) (src : Reg) : EncodeLength.Statement (.stwIR addr src) := rfl
theorem EncodeLength.stwII (addr : Word) (v : Word) : EncodeLength.Statement (.stwII addr v) := rfl
theorem EncodeLength.pshbR (src : Reg) : EncodeLength.Statement (.pshbR src) := rfl
theorem EncodeLength.pshbI (v : Word) : EncodeLength.Statement (.pshbI v) := rfl
theorem EncodeLength.pshwR (src : Reg) : EncodeLength.Statement (.pshwR src) := rfl
theorem EncodeLength.pshwI (v : Word) : EncodeLength.Statement (.pshwI v) := rfl
theorem EncodeLength.popbR (d : Reg) : EncodeLength.Statement (.popbR d) := rfl
theorem EncodeLength.popwR (d : Reg) : EncodeLength.Statement (.popwR d) := rfl
theorem EncodeLength.addRRR (d : Reg) (s1 : Reg) (s2 : Reg) : EncodeLength.Statement (.addRRR d s1 s2) := rfl
theorem EncodeLength.addRRI (d : Reg) (s1 : Reg) (v : Word) : EncodeLength.Statement (.addRRI d s1 v) := rfl
theorem EncodeLength.subRRR (d : Reg) (s1 : Reg) (s2 : Reg) : EncodeLength.Statement (.subRRR d s1 s2) := rfl
theorem EncodeLength.subRRI (d : Reg) (s1 : Reg) (v : Word) : EncodeLength.Statement (.subRRI d s1 v) := rfl
theorem EncodeLength.subRIR (d : Reg) (v : Word) (s2 : Reg) : EncodeLength.Statement (.subRIR d v s2) := rfl
theorem EncodeLength.mulRRR (d : Reg) (s1 : Reg) (s2 : Reg) : EncodeLength.Statement (.mulRRR d s1 s2) := rfl
theorem EncodeLength.mulRRI (d : Reg) (s1 : Reg) (v : Word) : EncodeLength.Statement (.mulRRI d s1 v) := rfl
theorem EncodeLength.divsRRR (d : Reg) (s1 : Reg) (s2 : Reg) : EncodeLength.Statement (.divsRRR d s1 s2) := rfl
theorem EncodeLength.divuRRR (d : Reg) (s1 : Reg) (s2 : Reg) : EncodeLength.Statement (.divuRRR d s1 s2) := rfl
theorem EncodeLength.remsRRR (d : Reg) (s1 : Reg) (s2 : Reg) : EncodeLength.Statement (.remsRRR d s1 s2) := rfl
theorem EncodeLength.remuRRR (d : Reg) (s1 : Reg) (s2 : Reg) : EncodeLength.Statement (.remuRRR d s1 s2) := rfl
theorem EncodeLength.andRRR (d : Reg) (s1 : Reg) (s2 : Reg) : EncodeLength.Statement (.andRRR d s1 s2) := rfl
theorem EncodeLength.andRRI (d : Reg) (s1 : Reg) (v : Word) : EncodeLength.Statement (.andRRI d s1 v) := rfl
theorem EncodeLength.iorRRR (d : Reg) (s1 : Reg) (s2 : Reg) : EncodeLength.Statement (.iorRRR d s1 s2) := rfl
theorem EncodeLength.iorRRI (d : Reg) (s1 : Reg) (v : Word) : EncodeLength.Statement (.iorRRI d s1 v) := rfl
theorem EncodeLength.xorRRR (d : Reg) (s1 : Reg) (s2 : Reg) : EncodeLength.Statement (.xorRRR d s1 s2) := rfl
theorem EncodeLength.xorRRI (d : Reg) (s1 : Reg) (v : Word) : EncodeLength.Statement (.xorRRI d s1 v) := rfl
theorem EncodeLength.lshRRR (d : Reg) (src : Reg) (n : Reg) : EncodeLength.Statement (.lshRRR d src n) := rfl
theorem EncodeLength.lshRRI (d : Reg) (src : Reg) (n : Word) : EncodeLength.Statement (.lshRRI d src n) := rfl
theorem EncodeLength.lshRIR (d : Reg) (v : Word) (n : Reg) : EncodeLength.Statement (.lshRIR d v n) := rfl
theorem EncodeLength.rshsRRR (d : Reg) (src : Reg) (n : Reg) : EncodeLength.Statement (.rshsRRR d src n) := rfl
theorem EncodeLength.rshsRRI (d : Reg) (src : Reg) (n : Word) : EncodeLength.Statement (.rshsRRI d src n) := rfl
theorem EncodeLength.rshsRIR (d : Reg) (v : Word) (n : Reg) : EncodeLength.Statement (.rshsRIR d v n) := rfl
theorem EncodeLength.rshuRRR (d : Reg) (src : Reg) (n : Reg) : EncodeLength.Statement (.rshuRRR d src n) := rfl
theorem EncodeLength.rshuRRI (d : Reg) (src : Reg) (n : Word) : EncodeLength.Statement (.rshuRRI d src n) := rfl
theorem EncodeLength.rshuRIR (d : Reg) (v : Word) (n : Reg) : EncodeLength.Statement (.rshuRIR d v n) := rfl
theorem EncodeLength.ceqRRR (d : Reg) (s1 : Reg) (s2 : Reg) : EncodeLength.Statement (.ceqRRR d s1 s2) := rfl
theorem EncodeLength.ceqRRI (d : Reg) (s1 : Reg) (v : Word) : EncodeLength.Statement (.ceqRRI d s1 v) := rfl
theorem EncodeLength.ceqRIR (d : Reg) (v : Word) (s2 : Reg) : EncodeLength.Statement (.ceqRIR d v s2) := rfl
theorem EncodeLength.cneRRR (d : Reg) (s1 : Reg) (s2 : Reg) : EncodeLength.Statement (.cneRRR d s1 s2) := rfl
theorem EncodeLength.cneRRI (d : Reg) (s1 : Reg) (v : Word) : EncodeLength.Statement (.cneRRI d s1 v) := rfl
theorem EncodeLength.cneRIR (d : Reg) (v : Word) (s2 : Reg) : EncodeLength.Statement (.cneRIR d v s2) := rfl
theorem EncodeLength.cltsRRR (d : Reg) (s1 : Reg) (s2 : Reg) : EncodeLength.Statement (.cltsRRR d s1 s2) := rfl
theorem EncodeLength.cltsRRI (d : Reg) (s1 : Reg) (v : Word) : EncodeLength.Statement (.cltsRRI d s1 v) := rfl
theorem EncodeLength.cltsRIR (d : Reg) (v : Word) (s2 : Reg) : EncodeLength.Statement (.cltsRIR d v s2) := rfl
theorem EncodeLength.cltuRRR (d : Reg) (s1 : Reg) (s2 : Reg) : EncodeLength.Statement (.cltuRRR d s1 s2) := rfl
theorem EncodeLength.cltuRRI (d : Reg) (s1 : Reg) (v : Word) : EncodeLength.Statement (.cltuRRI d s1 v) := rfl
theorem EncodeLength.cltuRIR (d : Reg) (v : Word) (s2 : Reg) : EncodeLength.Statement (.cltuRIR d v s2) := rfl
theorem EncodeLength.cgesRRR (d : Reg) (s1 : Reg) (s2 : Reg) : EncodeLength.Statement (.cgesRRR d s1 s2) := rfl
theorem EncodeLength.cgesRRI (d : Reg) (s1 : Reg) (v : Word) : EncodeLength.Statement (.cgesRRI d s1 v) := rfl
theorem EncodeLength.cgesRIR (d : Reg) (v : Word) (s2 : Reg) : EncodeLength.Statement (.cgesRIR d v s2) := rfl
theorem EncodeLength.cgeuRRR (d : Reg) (s1 : Reg) (s2 : Reg) : EncodeLength.Statement (.cgeuRRR d s1 s2) := rfl
theorem EncodeLength.cgeuRRI (d : Reg) (s1 : Reg) (v : Word) : EncodeLength.Statement (.cgeuRRI d s1 v) := rfl
theorem EncodeLength.cgeuRIR (d : Reg) (v : Word) (s2 : Reg) : EncodeLength.Statement (.cgeuRIR d v s2) := rfl
theorem EncodeLength.jmpR (target : Reg) : EncodeLength.Statement (.jmpR target) := rfl
theorem EncodeLength.jmpI (target : Word) : EncodeLength.Statement (.jmpI target) := rfl
theorem EncodeLength.jmzRR (cond : Reg) (target : Reg) : EncodeLength.Statement (.jmzRR cond target) := rfl
theorem EncodeLength.jmzRI (cond : Reg) (target : Word) : EncodeLength.Statement (.jmzRI cond target) := rfl
theorem EncodeLength.slp : EncodeLength.Statement .slp := rfl

/-- An instruction is its variant with its fields: no operand is lost between them (30_encoding.md R85). -/
def BuildFields.Statement (i : Instr) : Prop := i.opcode.build i.fields = i

theorem BuildFields.nop : BuildFields.Statement .nop := rfl
theorem BuildFields.setRR (d : Reg) (src : Reg) : BuildFields.Statement (.setRR d src) := rfl
theorem BuildFields.setRI (d : Reg) (v : Word) : BuildFields.Statement (.setRI d v) := rfl
theorem BuildFields.ldbRR (d : Reg) (addr : Reg) : BuildFields.Statement (.ldbRR d addr) := rfl
theorem BuildFields.ldbRI (d : Reg) (addr : Word) : BuildFields.Statement (.ldbRI d addr) := rfl
theorem BuildFields.ldwRR (d : Reg) (addr : Reg) : BuildFields.Statement (.ldwRR d addr) := rfl
theorem BuildFields.ldwRI (d : Reg) (addr : Word) : BuildFields.Statement (.ldwRI d addr) := rfl
theorem BuildFields.stbRR (addr : Reg) (src : Reg) : BuildFields.Statement (.stbRR addr src) := rfl
theorem BuildFields.stbRI (addr : Reg) (v : Word) : BuildFields.Statement (.stbRI addr v) := rfl
theorem BuildFields.stbIR (addr : Word) (src : Reg) : BuildFields.Statement (.stbIR addr src) := rfl
theorem BuildFields.stbII (addr : Word) (v : Word) : BuildFields.Statement (.stbII addr v) := rfl
theorem BuildFields.stwRR (addr : Reg) (src : Reg) : BuildFields.Statement (.stwRR addr src) := rfl
theorem BuildFields.stwRI (addr : Reg) (v : Word) : BuildFields.Statement (.stwRI addr v) := rfl
theorem BuildFields.stwIR (addr : Word) (src : Reg) : BuildFields.Statement (.stwIR addr src) := rfl
theorem BuildFields.stwII (addr : Word) (v : Word) : BuildFields.Statement (.stwII addr v) := rfl
theorem BuildFields.pshbR (src : Reg) : BuildFields.Statement (.pshbR src) := rfl
theorem BuildFields.pshbI (v : Word) : BuildFields.Statement (.pshbI v) := rfl
theorem BuildFields.pshwR (src : Reg) : BuildFields.Statement (.pshwR src) := rfl
theorem BuildFields.pshwI (v : Word) : BuildFields.Statement (.pshwI v) := rfl
theorem BuildFields.popbR (d : Reg) : BuildFields.Statement (.popbR d) := rfl
theorem BuildFields.popwR (d : Reg) : BuildFields.Statement (.popwR d) := rfl
theorem BuildFields.addRRR (d : Reg) (s1 : Reg) (s2 : Reg) : BuildFields.Statement (.addRRR d s1 s2) := rfl
theorem BuildFields.addRRI (d : Reg) (s1 : Reg) (v : Word) : BuildFields.Statement (.addRRI d s1 v) := rfl
theorem BuildFields.subRRR (d : Reg) (s1 : Reg) (s2 : Reg) : BuildFields.Statement (.subRRR d s1 s2) := rfl
theorem BuildFields.subRRI (d : Reg) (s1 : Reg) (v : Word) : BuildFields.Statement (.subRRI d s1 v) := rfl
theorem BuildFields.subRIR (d : Reg) (v : Word) (s2 : Reg) : BuildFields.Statement (.subRIR d v s2) := rfl
theorem BuildFields.mulRRR (d : Reg) (s1 : Reg) (s2 : Reg) : BuildFields.Statement (.mulRRR d s1 s2) := rfl
theorem BuildFields.mulRRI (d : Reg) (s1 : Reg) (v : Word) : BuildFields.Statement (.mulRRI d s1 v) := rfl
theorem BuildFields.divsRRR (d : Reg) (s1 : Reg) (s2 : Reg) : BuildFields.Statement (.divsRRR d s1 s2) := rfl
theorem BuildFields.divuRRR (d : Reg) (s1 : Reg) (s2 : Reg) : BuildFields.Statement (.divuRRR d s1 s2) := rfl
theorem BuildFields.remsRRR (d : Reg) (s1 : Reg) (s2 : Reg) : BuildFields.Statement (.remsRRR d s1 s2) := rfl
theorem BuildFields.remuRRR (d : Reg) (s1 : Reg) (s2 : Reg) : BuildFields.Statement (.remuRRR d s1 s2) := rfl
theorem BuildFields.andRRR (d : Reg) (s1 : Reg) (s2 : Reg) : BuildFields.Statement (.andRRR d s1 s2) := rfl
theorem BuildFields.andRRI (d : Reg) (s1 : Reg) (v : Word) : BuildFields.Statement (.andRRI d s1 v) := rfl
theorem BuildFields.iorRRR (d : Reg) (s1 : Reg) (s2 : Reg) : BuildFields.Statement (.iorRRR d s1 s2) := rfl
theorem BuildFields.iorRRI (d : Reg) (s1 : Reg) (v : Word) : BuildFields.Statement (.iorRRI d s1 v) := rfl
theorem BuildFields.xorRRR (d : Reg) (s1 : Reg) (s2 : Reg) : BuildFields.Statement (.xorRRR d s1 s2) := rfl
theorem BuildFields.xorRRI (d : Reg) (s1 : Reg) (v : Word) : BuildFields.Statement (.xorRRI d s1 v) := rfl
theorem BuildFields.lshRRR (d : Reg) (src : Reg) (n : Reg) : BuildFields.Statement (.lshRRR d src n) := rfl
theorem BuildFields.lshRRI (d : Reg) (src : Reg) (n : Word) : BuildFields.Statement (.lshRRI d src n) := rfl
theorem BuildFields.lshRIR (d : Reg) (v : Word) (n : Reg) : BuildFields.Statement (.lshRIR d v n) := rfl
theorem BuildFields.rshsRRR (d : Reg) (src : Reg) (n : Reg) : BuildFields.Statement (.rshsRRR d src n) := rfl
theorem BuildFields.rshsRRI (d : Reg) (src : Reg) (n : Word) : BuildFields.Statement (.rshsRRI d src n) := rfl
theorem BuildFields.rshsRIR (d : Reg) (v : Word) (n : Reg) : BuildFields.Statement (.rshsRIR d v n) := rfl
theorem BuildFields.rshuRRR (d : Reg) (src : Reg) (n : Reg) : BuildFields.Statement (.rshuRRR d src n) := rfl
theorem BuildFields.rshuRRI (d : Reg) (src : Reg) (n : Word) : BuildFields.Statement (.rshuRRI d src n) := rfl
theorem BuildFields.rshuRIR (d : Reg) (v : Word) (n : Reg) : BuildFields.Statement (.rshuRIR d v n) := rfl
theorem BuildFields.ceqRRR (d : Reg) (s1 : Reg) (s2 : Reg) : BuildFields.Statement (.ceqRRR d s1 s2) := rfl
theorem BuildFields.ceqRRI (d : Reg) (s1 : Reg) (v : Word) : BuildFields.Statement (.ceqRRI d s1 v) := rfl
theorem BuildFields.ceqRIR (d : Reg) (v : Word) (s2 : Reg) : BuildFields.Statement (.ceqRIR d v s2) := rfl
theorem BuildFields.cneRRR (d : Reg) (s1 : Reg) (s2 : Reg) : BuildFields.Statement (.cneRRR d s1 s2) := rfl
theorem BuildFields.cneRRI (d : Reg) (s1 : Reg) (v : Word) : BuildFields.Statement (.cneRRI d s1 v) := rfl
theorem BuildFields.cneRIR (d : Reg) (v : Word) (s2 : Reg) : BuildFields.Statement (.cneRIR d v s2) := rfl
theorem BuildFields.cltsRRR (d : Reg) (s1 : Reg) (s2 : Reg) : BuildFields.Statement (.cltsRRR d s1 s2) := rfl
theorem BuildFields.cltsRRI (d : Reg) (s1 : Reg) (v : Word) : BuildFields.Statement (.cltsRRI d s1 v) := rfl
theorem BuildFields.cltsRIR (d : Reg) (v : Word) (s2 : Reg) : BuildFields.Statement (.cltsRIR d v s2) := rfl
theorem BuildFields.cltuRRR (d : Reg) (s1 : Reg) (s2 : Reg) : BuildFields.Statement (.cltuRRR d s1 s2) := rfl
theorem BuildFields.cltuRRI (d : Reg) (s1 : Reg) (v : Word) : BuildFields.Statement (.cltuRRI d s1 v) := rfl
theorem BuildFields.cltuRIR (d : Reg) (v : Word) (s2 : Reg) : BuildFields.Statement (.cltuRIR d v s2) := rfl
theorem BuildFields.cgesRRR (d : Reg) (s1 : Reg) (s2 : Reg) : BuildFields.Statement (.cgesRRR d s1 s2) := rfl
theorem BuildFields.cgesRRI (d : Reg) (s1 : Reg) (v : Word) : BuildFields.Statement (.cgesRRI d s1 v) := rfl
theorem BuildFields.cgesRIR (d : Reg) (v : Word) (s2 : Reg) : BuildFields.Statement (.cgesRIR d v s2) := rfl
theorem BuildFields.cgeuRRR (d : Reg) (s1 : Reg) (s2 : Reg) : BuildFields.Statement (.cgeuRRR d s1 s2) := rfl
theorem BuildFields.cgeuRRI (d : Reg) (s1 : Reg) (v : Word) : BuildFields.Statement (.cgeuRRI d s1 v) := rfl
theorem BuildFields.cgeuRIR (d : Reg) (v : Word) (s2 : Reg) : BuildFields.Statement (.cgeuRIR d v s2) := rfl
theorem BuildFields.jmpR (target : Reg) : BuildFields.Statement (.jmpR target) := rfl
theorem BuildFields.jmpI (target : Word) : BuildFields.Statement (.jmpI target) := rfl
theorem BuildFields.jmzRR (cond : Reg) (target : Reg) : BuildFields.Statement (.jmzRR cond target) := rfl
theorem BuildFields.jmzRI (cond : Reg) (target : Word) : BuildFields.Statement (.jmzRI cond target) := rfl
theorem BuildFields.slp : BuildFields.Statement .slp := rfl

/-- The overload that an instruction's mnemonic and operand kinds select is its own variant (30_encoding.md R113). -/
def SelectsOverload.Statement (i : Instr) : Prop :=
    Assembler.selectOverload (Assembler.mnemonicOf i.opcode) (Assembler.operandsOf i) = some i.opcode

theorem SelectsOverload.nop : SelectsOverload.Statement .nop := rfl
theorem SelectsOverload.setRR (d : Reg) (src : Reg) : SelectsOverload.Statement (.setRR d src) := rfl
theorem SelectsOverload.setRI (d : Reg) (v : Word) : SelectsOverload.Statement (.setRI d v) := rfl
theorem SelectsOverload.ldbRR (d : Reg) (addr : Reg) : SelectsOverload.Statement (.ldbRR d addr) := rfl
theorem SelectsOverload.ldbRI (d : Reg) (addr : Word) : SelectsOverload.Statement (.ldbRI d addr) := rfl
theorem SelectsOverload.ldwRR (d : Reg) (addr : Reg) : SelectsOverload.Statement (.ldwRR d addr) := rfl
theorem SelectsOverload.ldwRI (d : Reg) (addr : Word) : SelectsOverload.Statement (.ldwRI d addr) := rfl
theorem SelectsOverload.stbRR (addr : Reg) (src : Reg) : SelectsOverload.Statement (.stbRR addr src) := rfl
theorem SelectsOverload.stbRI (addr : Reg) (v : Word) : SelectsOverload.Statement (.stbRI addr v) := rfl
theorem SelectsOverload.stbIR (addr : Word) (src : Reg) : SelectsOverload.Statement (.stbIR addr src) := rfl
theorem SelectsOverload.stbII (addr : Word) (v : Word) : SelectsOverload.Statement (.stbII addr v) := rfl
theorem SelectsOverload.stwRR (addr : Reg) (src : Reg) : SelectsOverload.Statement (.stwRR addr src) := rfl
theorem SelectsOverload.stwRI (addr : Reg) (v : Word) : SelectsOverload.Statement (.stwRI addr v) := rfl
theorem SelectsOverload.stwIR (addr : Word) (src : Reg) : SelectsOverload.Statement (.stwIR addr src) := rfl
theorem SelectsOverload.stwII (addr : Word) (v : Word) : SelectsOverload.Statement (.stwII addr v) := rfl
theorem SelectsOverload.pshbR (src : Reg) : SelectsOverload.Statement (.pshbR src) := rfl
theorem SelectsOverload.pshbI (v : Word) : SelectsOverload.Statement (.pshbI v) := rfl
theorem SelectsOverload.pshwR (src : Reg) : SelectsOverload.Statement (.pshwR src) := rfl
theorem SelectsOverload.pshwI (v : Word) : SelectsOverload.Statement (.pshwI v) := rfl
theorem SelectsOverload.popbR (d : Reg) : SelectsOverload.Statement (.popbR d) := rfl
theorem SelectsOverload.popwR (d : Reg) : SelectsOverload.Statement (.popwR d) := rfl
theorem SelectsOverload.addRRR (d : Reg) (s1 : Reg) (s2 : Reg) : SelectsOverload.Statement (.addRRR d s1 s2) := rfl
theorem SelectsOverload.addRRI (d : Reg) (s1 : Reg) (v : Word) : SelectsOverload.Statement (.addRRI d s1 v) := rfl
theorem SelectsOverload.subRRR (d : Reg) (s1 : Reg) (s2 : Reg) : SelectsOverload.Statement (.subRRR d s1 s2) := rfl
theorem SelectsOverload.subRRI (d : Reg) (s1 : Reg) (v : Word) : SelectsOverload.Statement (.subRRI d s1 v) := rfl
theorem SelectsOverload.subRIR (d : Reg) (v : Word) (s2 : Reg) : SelectsOverload.Statement (.subRIR d v s2) := rfl
theorem SelectsOverload.mulRRR (d : Reg) (s1 : Reg) (s2 : Reg) : SelectsOverload.Statement (.mulRRR d s1 s2) := rfl
theorem SelectsOverload.mulRRI (d : Reg) (s1 : Reg) (v : Word) : SelectsOverload.Statement (.mulRRI d s1 v) := rfl
theorem SelectsOverload.divsRRR (d : Reg) (s1 : Reg) (s2 : Reg) : SelectsOverload.Statement (.divsRRR d s1 s2) := rfl
theorem SelectsOverload.divuRRR (d : Reg) (s1 : Reg) (s2 : Reg) : SelectsOverload.Statement (.divuRRR d s1 s2) := rfl
theorem SelectsOverload.remsRRR (d : Reg) (s1 : Reg) (s2 : Reg) : SelectsOverload.Statement (.remsRRR d s1 s2) := rfl
theorem SelectsOverload.remuRRR (d : Reg) (s1 : Reg) (s2 : Reg) : SelectsOverload.Statement (.remuRRR d s1 s2) := rfl
theorem SelectsOverload.andRRR (d : Reg) (s1 : Reg) (s2 : Reg) : SelectsOverload.Statement (.andRRR d s1 s2) := rfl
theorem SelectsOverload.andRRI (d : Reg) (s1 : Reg) (v : Word) : SelectsOverload.Statement (.andRRI d s1 v) := rfl
theorem SelectsOverload.iorRRR (d : Reg) (s1 : Reg) (s2 : Reg) : SelectsOverload.Statement (.iorRRR d s1 s2) := rfl
theorem SelectsOverload.iorRRI (d : Reg) (s1 : Reg) (v : Word) : SelectsOverload.Statement (.iorRRI d s1 v) := rfl
theorem SelectsOverload.xorRRR (d : Reg) (s1 : Reg) (s2 : Reg) : SelectsOverload.Statement (.xorRRR d s1 s2) := rfl
theorem SelectsOverload.xorRRI (d : Reg) (s1 : Reg) (v : Word) : SelectsOverload.Statement (.xorRRI d s1 v) := rfl
theorem SelectsOverload.lshRRR (d : Reg) (src : Reg) (n : Reg) : SelectsOverload.Statement (.lshRRR d src n) := rfl
theorem SelectsOverload.lshRRI (d : Reg) (src : Reg) (n : Word) : SelectsOverload.Statement (.lshRRI d src n) := rfl
theorem SelectsOverload.lshRIR (d : Reg) (v : Word) (n : Reg) : SelectsOverload.Statement (.lshRIR d v n) := rfl
theorem SelectsOverload.rshsRRR (d : Reg) (src : Reg) (n : Reg) : SelectsOverload.Statement (.rshsRRR d src n) := rfl
theorem SelectsOverload.rshsRRI (d : Reg) (src : Reg) (n : Word) : SelectsOverload.Statement (.rshsRRI d src n) := rfl
theorem SelectsOverload.rshsRIR (d : Reg) (v : Word) (n : Reg) : SelectsOverload.Statement (.rshsRIR d v n) := rfl
theorem SelectsOverload.rshuRRR (d : Reg) (src : Reg) (n : Reg) : SelectsOverload.Statement (.rshuRRR d src n) := rfl
theorem SelectsOverload.rshuRRI (d : Reg) (src : Reg) (n : Word) : SelectsOverload.Statement (.rshuRRI d src n) := rfl
theorem SelectsOverload.rshuRIR (d : Reg) (v : Word) (n : Reg) : SelectsOverload.Statement (.rshuRIR d v n) := rfl
theorem SelectsOverload.ceqRRR (d : Reg) (s1 : Reg) (s2 : Reg) : SelectsOverload.Statement (.ceqRRR d s1 s2) := rfl
theorem SelectsOverload.ceqRRI (d : Reg) (s1 : Reg) (v : Word) : SelectsOverload.Statement (.ceqRRI d s1 v) := rfl
theorem SelectsOverload.ceqRIR (d : Reg) (v : Word) (s2 : Reg) : SelectsOverload.Statement (.ceqRIR d v s2) := rfl
theorem SelectsOverload.cneRRR (d : Reg) (s1 : Reg) (s2 : Reg) : SelectsOverload.Statement (.cneRRR d s1 s2) := rfl
theorem SelectsOverload.cneRRI (d : Reg) (s1 : Reg) (v : Word) : SelectsOverload.Statement (.cneRRI d s1 v) := rfl
theorem SelectsOverload.cneRIR (d : Reg) (v : Word) (s2 : Reg) : SelectsOverload.Statement (.cneRIR d v s2) := rfl
theorem SelectsOverload.cltsRRR (d : Reg) (s1 : Reg) (s2 : Reg) : SelectsOverload.Statement (.cltsRRR d s1 s2) := rfl
theorem SelectsOverload.cltsRRI (d : Reg) (s1 : Reg) (v : Word) : SelectsOverload.Statement (.cltsRRI d s1 v) := rfl
theorem SelectsOverload.cltsRIR (d : Reg) (v : Word) (s2 : Reg) : SelectsOverload.Statement (.cltsRIR d v s2) := rfl
theorem SelectsOverload.cltuRRR (d : Reg) (s1 : Reg) (s2 : Reg) : SelectsOverload.Statement (.cltuRRR d s1 s2) := rfl
theorem SelectsOverload.cltuRRI (d : Reg) (s1 : Reg) (v : Word) : SelectsOverload.Statement (.cltuRRI d s1 v) := rfl
theorem SelectsOverload.cltuRIR (d : Reg) (v : Word) (s2 : Reg) : SelectsOverload.Statement (.cltuRIR d v s2) := rfl
theorem SelectsOverload.cgesRRR (d : Reg) (s1 : Reg) (s2 : Reg) : SelectsOverload.Statement (.cgesRRR d s1 s2) := rfl
theorem SelectsOverload.cgesRRI (d : Reg) (s1 : Reg) (v : Word) : SelectsOverload.Statement (.cgesRRI d s1 v) := rfl
theorem SelectsOverload.cgesRIR (d : Reg) (v : Word) (s2 : Reg) : SelectsOverload.Statement (.cgesRIR d v s2) := rfl
theorem SelectsOverload.cgeuRRR (d : Reg) (s1 : Reg) (s2 : Reg) : SelectsOverload.Statement (.cgeuRRR d s1 s2) := rfl
theorem SelectsOverload.cgeuRRI (d : Reg) (s1 : Reg) (v : Word) : SelectsOverload.Statement (.cgeuRRI d s1 v) := rfl
theorem SelectsOverload.cgeuRIR (d : Reg) (v : Word) (s2 : Reg) : SelectsOverload.Statement (.cgeuRIR d v s2) := rfl
theorem SelectsOverload.jmpR (target : Reg) : SelectsOverload.Statement (.jmpR target) := rfl
theorem SelectsOverload.jmpI (target : Word) : SelectsOverload.Statement (.jmpI target) := rfl
theorem SelectsOverload.jmzRR (cond : Reg) (target : Reg) : SelectsOverload.Statement (.jmzRR cond target) := rfl
theorem SelectsOverload.jmzRI (cond : Reg) (target : Word) : SelectsOverload.Statement (.jmzRI cond target) := rfl
theorem SelectsOverload.slp : SelectsOverload.Statement .slp := rfl

end Sys2Proof.Laws
end

