-- ==== Sys2Proof/Machine/Parser.lean ====
section
/-! DEFINITION. The assembly text: from characters to the lines that Machine/Assembler.lean takes
(30_encoding.md R110 to R112, R119; D17, D22). The spans, the recovery after an error and the cap on errors are
out of scope (00_scope.md R4); here the first error of the text is the answer. -/

namespace Sys2Proof.Assembler

/-- Parse errors (R111, R122); the source gives no names. -/
inductive ParseError where
  /-- a character that no token holds -/
  | badCharacter
  /-- tokens that no rule of the grammar matches (R110) -/
  | malformedLine
  | malformedOperand
  | malformedLabel
  | malformedData
  | unknownMnemonic
  | unknownRegister
  /-- a number out of 32 bits unsigned (hex) or 32 bits signed (decimal) (R111) -/
  | numericOverflow
  deriving DecidableEq, Repr

/-- The tokens of a line. A word is a run of letters, digits, `_` and `.`: a name, a mnemonic, `.data`, a hex byte,
or the digits of a number with their `0x`. Each of `$`, `@`, `:`, `,`, `+`, `-` is a token by itself.
DESIGN CHOICE: R110 makes spaces insignificant between tokens and does not say which characters are one token; so
`$ x0`, `- 5` and `x @ F000 :` read as without the spaces, and `0x 10` and `po pw` do not (log 20); unsafe for a
claim about text. -/
inductive Token where
  | word (w : List Char)
  | dollar
  | atSign
  | colon
  | comma
  | plus
  | minus
  deriving DecidableEq, Repr

def isWordChar (c : Char) : Bool := c.isAlphanum || c == '_' || c == '.'

/-- The word read so far (its characters in reverse), as a token, before `ts`. -/
def flushWord (acc : List Char) (ts : List Token) : List Token :=
  match acc with
  | [] => ts
  | _ :: _ => .word acc.reverse :: ts

/-- The token of a punctuation character. -/
def punctuation : Char → Option Token
  | '$' => some .dollar
  | '@' => some .atSign
  | ':' => some .colon
  | ',' => some .comma
  | '+' => some .plus
  | '-' => some .minus
  | _ => none

/-- The tokens of one physical line: spaces and tabs separate, `;` starts a comment (R110). `acc` holds the
word being read, in reverse. DESIGN CHOICE: which characters are one token, see `Token` (log 20). -/
def lexLine (acc : List Char) : List Char → Except ParseError (List Token)
  | [] => .ok (flushWord acc [])
  | c :: cs =>
    if isWordChar c then lexLine (c :: acc) cs
    else if c == ';' then .ok (flushWord acc [])
    else if c == ' ' || c == '\t' then
      match lexLine [] cs with
      | .ok ts => .ok (flushWord acc ts)
      | .error e => .error e
    else
      match punctuation c with
      | none => .error .badCharacter
      | some t =>
        match lexLine [] cs with
        | .ok ts => .ok (flushWord acc (t :: ts))
        | .error e => .error e

/-- The value of a hex digit. -/
def hexDigit (c : Char) : Option Nat :=
  if c.isDigit then some (c.toNat - '0'.toNat)
  else if 'a' ≤ c ∧ c ≤ 'f' then some (c.toNat - 'a'.toNat + 10)
  else if 'A' ≤ c ∧ c ≤ 'F' then some (c.toNat - 'A'.toNat + 10)
  else none

/-- The value of a decimal digit. -/
def decDigit (c : Char) : Option Nat := if c.isDigit then some (c.toNat - '0'.toNat) else none

/-- The value of a run of digits after a value already read. -/
def digitsFrom (base : Nat) (digit : Char → Option Nat) (acc : Nat) : List Char → Option Nat
  | [] => some acc
  | c :: cs =>
    match digit c with
    | some d => digitsFrom base digit (acc * base + d) cs
    | none => none

/-- The value of one or more digits. -/
def digits (base : Nat) (digit : Char → Option Nat) : List Char → Option Nat
  | [] => none
  | c :: cs => digitsFrom base digit 0 (c :: cs)

/-- A name: letters, digits and `_`, not starting with a digit (D22). -/
def isName : List Char → Bool
  | [] => false
  | c :: cs => (c.isAlpha || c == '_') && cs.all (fun d => d.isAlphanum || d == '_')

/-- A decimal number with a sign, in the signed 32-bit range (R111). -/
def signedDecimal (negative : Bool) (w : List Char) : Except ParseError Operand :=
  match digits 10 decDigit w with
  | none => .error .malformedOperand
  | some n =>
    if negative then
      if n ≤ 2147483648 then .ok (.imm (-(n : Int))) else .error .numericOverflow
    else
      if n ≤ 2147483647 then .ok (.imm n) else .error .numericOverflow

/-- A number without a sign: hex after `0x`, up to 32 bits unsigned, or decimal (R111). -/
def unsignedNumber (w : List Char) : Except ParseError Operand :=
  match w with
  | '0' :: 'x' :: h =>
    match digits 16 hexDigit h with
    | none => .error .malformedOperand
    | some n => if n ≤ 4294967295 then .ok (.imm n) else .error .numericOverflow
  | _ => signedDecimal false w

/-- The characters with capitals made small: mnemonics and register names are matched without regard to case
(R111, R112, D17). -/
def lower (w : List Char) : List Char := w.map Char.toLower

/-- The register names (R11, R111); AC and RT are one register. -/
def registerNames : List (List Char × Reg) :=
  [("nl".toList, .nl), ("ip".toList, .ip), ("sp".toList, .sp), ("ac".toList, .ac), ("rt".toList, .ac),
   ("x0".toList, .x0), ("x1".toList, .x1), ("x2".toList, .x2), ("x3".toList, .x3), ("x4".toList, .x4),
   ("x5".toList, .x5), ("x6".toList, .x6), ("x7".toList, .x7), ("x8".toList, .x8), ("x9".toList, .x9),
   ("x10".toList, .x10), ("x11".toList, .x11)]

/-- The mnemonics (R112). -/
def mnemonicNames : List (List Char × Mnemonic) :=
  [("nop".toList, .nop), ("set".toList, .set), ("ldb".toList, .ldb), ("ldw".toList, .ldw),
   ("stb".toList, .stb), ("stw".toList, .stw), ("pshb".toList, .pshb), ("pshw".toList, .pshw),
   ("popb".toList, .popb), ("popw".toList, .popw), ("add".toList, .add), ("sub".toList, .sub),
   ("mul".toList, .mul), ("divs".toList, .divs), ("divu".toList, .divu), ("rems".toList, .rems),
   ("remu".toList, .remu), ("and".toList, .and), ("ior".toList, .ior), ("xor".toList, .xor),
   ("lsh".toList, .lsh), ("rshs".toList, .rshs), ("rshu".toList, .rshu), ("ceq".toList, .ceq),
   ("cne".toList, .cne), ("clts".toList, .clts), ("cltu".toList, .cltu), ("cges".toList, .cges),
   ("cgeu".toList, .cgeu), ("jmp".toList, .jmp), ("jmz".toList, .jmz), ("slp".toList, .slp)]

/-- The entry of a table under a name. -/
def findNamed {α : Type} (w : List Char) : List (List Char × α) → Option α
  | [] => none
  | (n, x) :: rest => if n = w then some x else findNamed w rest

/-- One operand (R110, R111). -/
def parseOperand : List Token → Except ParseError Operand
  | [.dollar, .word w] =>
    match findNamed (lower w) registerNames with
    | some r => .ok (.reg r)
    | none => .error .unknownRegister
  | [.atSign, .word w] => if isName w then .ok (.label w) else .error .malformedOperand
  | [.word w] => unsignedNumber w
  | [.plus, .word w] => signedDecimal false w
  | [.minus, .word w] => signedDecimal true w
  | _ => .error .malformedOperand

/-- The operands of an instruction, separated by commas (R110). `acc` holds the tokens of the operand being
read, in reverse. -/
def parseOperands (acc : List Token) : List Token → Except ParseError (List Operand)
  | [] =>
    match parseOperand acc.reverse with
    | .ok o => .ok [o]
    | .error e => .error e
  | .comma :: ts =>
    match parseOperand acc.reverse with
    | .error e => .error e
    | .ok o =>
      match parseOperands [] ts with
      | .ok os => .ok (o :: os)
      | .error e => .error e
  | t :: ts => parseOperands (t :: acc) ts

/-- The bytes of a `.data` item: pairs of hex digits (R117). -/
def parseData : List Token → Except ParseError (List Byte)
  | [] => .ok []
  | .word [h, l] :: ts =>
    match digits 16 hexDigit [h, l] with
    | none => .error .malformedData
    | some n =>
      match parseData ts with
      | .ok bs => .ok (BitVec.ofNat 8 n :: bs)
      | .error e => .error e
  | _ => .error .malformedData

/-- An instruction or a `.data` item, or nothing (R110).
DESIGN CHOICE: R112's "longest-match against the whole identifier set" compares the whole word with the 32
mnemonics, so a mnemonic may not stand directly against a letter, a digit, `_` or `.`: `jmp5` is an unknown
mnemonic, not `jmp 5`, as it would be if the longest mnemonic that begins the text were taken (log 20); unsafe for
a claim about text. -/
def parseItem : List Token → Except ParseError (List AsmLine)
  | [] => .ok []
  | .word w :: ts =>
    if w = ".data".toList then
      match parseData ts with
      | .ok [] => .error .malformedData
      | .ok bs => .ok [.data bs]
      | .error e => .error e
    else
      match findNamed (lower w) mnemonicNames with
      | none => .error .unknownMnemonic
      | some m =>
        match ts with
        | [] => .ok [.instr m []]
        | t :: rest =>
          match parseOperands [] (t :: rest) with
          | .ok os => .ok [.instr m os]
          | .error e => .error e
  | _ => .error .malformedLine

/-- The address of a label: 1 to 4 bare hex digits (R119, D22). -/
def hexAddress (w : List Char) : Option Word :=
  if w.length ≤ 4 then (digits 16 hexDigit w).map (BitVec.ofNat 16) else none

/-- A label followed by the rest of its line. -/
def withLabel (l : Option Label) (rest : List Token) : Except ParseError (List AsmLine) :=
  match l with
  | none => .error .malformedLabel
  | some l =>
    match parseItem rest with
    | .ok items => .ok (.label l :: items)
    | .error e => .error e

/-- One physical line: a label, an item, a label and an item, or nothing (R110; 90_conflicts.md C1, C2). -/
def parseTokens : List Token → Except ParseError (List AsmLine)
  | .word n :: .colon :: rest => withLabel (if isName n then some (.byName n) else none) rest
  | .word n :: .atSign :: .word h :: .colon :: rest =>
    withLabel (if isName n then (hexAddress h).map (.byBoth n) else none) rest
  | .atSign :: .word h :: .colon :: rest => withLabel ((hexAddress h).map .byAddress) rest
  | ts => parseItem ts

/-- One physical line of text. DESIGN CHOICE: of two parse errors of one line, a character that no token holds is
reported first, then a malformed label, then the leftmost error of the item (log 20); unsafe for a claim about
which error is reported. -/
def parseLine (cs : List Char) : Except ParseError (List AsmLine) :=
  match lexLine [] cs with
  | .ok ts => parseTokens ts
  | .error e => .error e

/-- The physical lines of a text; `acc` holds the line being read, in reverse. -/
def splitLines (acc : List Char) : List Char → List (List Char)
  | [] => [acc.reverse]
  | c :: cs => if c == '\n' then acc.reverse :: splitLines [] cs else splitLines (c :: acc) cs

/-- All lines of a program, up to the first error. -/
def parseLines : List (List Char) → Except ParseError (List AsmLine)
  | [] => .ok []
  | l :: ls =>
    match parseLine l with
    | .error e => .error e
    | .ok items =>
      match parseLines ls with
      | .ok rest => .ok (items ++ rest)
      | .error e => .error e

/-- A program text as its lines. -/
def parse (text : List Char) : Except ParseError (List AsmLine) := parseLines (splitLines [] text)

/-- Why a text becomes no image. -/
inductive BuildError where
  | parsing (e : ParseError)
  | assembling (e : AsmError)
  deriving DecidableEq, Repr

/-- From text to image (R123): the whole text is parsed first, then its lines are assembled.
DESIGN CHOICE: R122 does not say which error is reported of a text that has an assembling error on an earlier line
and a parse error on a later one; here it is the parse error, because nothing is assembled of a text that does not
parse (log 20). Either way there is no image; unsafe for a claim about which error is reported. -/
def assembleText (text : List Char) : Except BuildError Machine.Memory :=
  match parse text with
  | .error e => .error (.parsing e)
  | .ok ls =>
    match assemble ls with
    | .error e => .error (.assembling e)
    | .ok image => .ok image

end Sys2Proof.Assembler
end

