-- ==== Sys2Proof/Tests/Slice0.lean ====
section
/-! SUPPORT. Tests of the model. The expected bytes and values are those of spec/95_test_vectors.md (Part 1 and
Part 2; the row is named by its assembly text) or worked by hand from the rule named. The last part shows, for
each statement with hypotheses, a state and operands that meet them all. -/

namespace Sys2Proof.Tests

open Machine

/-! ### Ill-formed immediates are refused (WellFormed) -/

theorem test_wf_stbRI : (Instr.stbRI .x0 0x0100).wf = false ∧ (Instr.stbRI .x0 0x00FF).wf = true := by decide

theorem test_wf_pshbI : (Instr.pshbI 0xFF80).wf = false ∧ (Instr.pshbI 0x0080).wf = true := by decide

theorem test_wf_lshRRI : (Instr.lshRRI .x0 .x1 16).wf = false ∧ (Instr.lshRRI .x0 .x1 15).wf = true := by decide

theorem test_wf_rshsRRI : (Instr.rshsRRI .x0 .x1 16).wf = false ∧ (Instr.rshsRRI .x0 .x1 15).wf = true := by
  decide

theorem test_wf_rshuRRI : (Instr.rshuRRI .x0 .x1 16).wf = false ∧ (Instr.rshuRRI .x0 .x1 15).wf = true := by
  decide

/-! ### Words written out from the encodings (30_encoding.md R73 to R90) decode to what they stand for -/

theorem test_decode_control :
    decode [0x00] = .ok (.nop, []) ∧
    decode [0x41, 0x40] = .ok (.jmpR .x0, []) ∧
    decode [0x42, 0x40, 0x00] = .ok (.jmpI 0x0040, []) ∧
    decode [0x43, 0x45] = .ok (.jmzRR .x0 .x1, []) ∧
    decode [0x44, 0x00, 0x02, 0x40] = .ok (.jmzRI .x0 0x0200, []) ∧
    decode [0x45] = .ok (.slp, []) := by
  refine ⟨rfl, rfl, rfl, rfl, rfl, rfl⟩

theorem test_decode_dataMovement :
    decode [0x01, 0x45] = .ok (.setRR .x0 .x1, []) ∧
    decode [0x02, 0x34, 0x12, 0x40] = .ok (.setRI .x0 0x1234, []) ∧
    decode [0x03, 0x45] = .ok (.ldbRR .x0 .x1, []) ∧
    decode [0x04, 0x00, 0xE0, 0x40] = .ok (.ldbRI .x0 0xE000, []) ∧
    decode [0x05, 0x45] = .ok (.ldwRR .x0 .x1, []) ∧
    decode [0x06, 0x01, 0x20, 0x60] = .ok (.ldwRI .x2 0x2001, []) ∧
    decode [0x07, 0x45] = .ok (.stbRR .x0 .x1, []) ∧
    decode [0x08, 0x80, 0x40] = .ok (.stbRI .x0 0x0080, []) ∧
    decode [0x09, 0x00, 0xF0, 0x70] = .ok (.stbIR 0xF000 .x3, []) ∧
    decode [0x0A, 0x03, 0xF0, 0x40, 0x00] = .ok (.stbII 0xF003 0x0040, []) ∧
    decode [0x0B, 0x45] = .ok (.stwRR .x0 .x1, []) ∧
    decode [0x0C, 0x34, 0x12, 0x40] = .ok (.stwRI .x0 0x1234, []) ∧
    decode [0x0D, 0x00, 0x40, 0x90] = .ok (.stwIR 0x4000 .x5, []) ∧
    decode [0x0E, 0xFF, 0xFF, 0x5A, 0xA5] = .ok (.stwII 0xFFFF 0xA55A, []) := by
  refine ⟨rfl, rfl, rfl, rfl, rfl, rfl, rfl, rfl, rfl, rfl, rfl, rfl, rfl, rfl⟩

theorem test_decode_stack :
    decode [0x0F, 0x40] = .ok (.pshbR .x0, []) ∧
    decode [0x10, 0x7F] = .ok (.pshbI 0x007F, []) ∧
    decode [0x11, 0x40] = .ok (.pshwR .x0, []) ∧
    decode [0x12, 0xEF, 0xBE] = .ok (.pshwI 0xBEEF, []) ∧
    decode [0x13, 0x50] = .ok (.popbR .x1, []) ∧
    decode [0x14, 0x50] = .ok (.popwR .x1, []) := by
  refine ⟨rfl, rfl, rfl, rfl, rfl, rfl⟩

theorem test_decode_arithmetic :
    decode [0x15, 0x60, 0x45] = .ok (.addRRR .x0 .x1 .x2, []) ∧
    decode [0x16, 0x01, 0x00, 0x45] = .ok (.addRRI .x0 .x1 0x0001, []) ∧
    decode [0x17, 0x60, 0x45] = .ok (.subRRR .x0 .x1 .x2, []) ∧
    decode [0x18, 0x01, 0x00, 0x45] = .ok (.subRRI .x0 .x1 0x0001, []) ∧
    decode [0x19, 0x64, 0x00, 0x45] = .ok (.subRIR .x0 0x0064 .x1, []) ∧
    decode [0x1A, 0x60, 0x45] = .ok (.mulRRR .x0 .x1 .x2, []) ∧
    decode [0x1B, 0x10, 0x00, 0x45] = .ok (.mulRRI .x0 .x1 0x0010, []) ∧
    decode [0x1C, 0x60, 0x45] = .ok (.divsRRR .x0 .x1 .x2, []) ∧
    decode [0x1D, 0x60, 0x45] = .ok (.divuRRR .x0 .x1 .x2, []) ∧
    decode [0x1E, 0x60, 0x45] = .ok (.remsRRR .x0 .x1 .x2, []) ∧
    decode [0x1F, 0x60, 0x45] = .ok (.remuRRR .x0 .x1 .x2, []) := by
  refine ⟨rfl, rfl, rfl, rfl, rfl, rfl, rfl, rfl, rfl, rfl, rfl⟩

theorem test_decode_bitwise :
    decode [0x20, 0x60, 0x45] = .ok (.andRRR .x0 .x1 .x2, []) ∧
    decode [0x21, 0xFF, 0x00, 0x45] = .ok (.andRRI .x0 .x1 0x00FF, []) ∧
    decode [0x22, 0x60, 0x45] = .ok (.iorRRR .x0 .x1 .x2, []) ∧
    decode [0x23, 0x34, 0x00, 0x45] = .ok (.iorRRI .x0 .x1 0x0034, []) ∧
    decode [0x24, 0x60, 0x45] = .ok (.xorRRR .x0 .x1 .x2, []) ∧
    decode [0x25, 0xFF, 0xFF, 0x45] = .ok (.xorRRI .x0 .x1 0xFFFF, []) := by
  refine ⟨rfl, rfl, rfl, rfl, rfl, rfl⟩

theorem test_decode_shift :
    decode [0x26, 0x60, 0x45] = .ok (.lshRRR .x0 .x1 .x2, []) ∧
    decode [0x27, 0x00, 0x45] = .ok (.lshRRI .x0 .x1 0x0000, []) ∧
    decode [0x28, 0x00, 0x80, 0x45] = .ok (.lshRIR .x0 0x8000 .x1, []) ∧
    decode [0x29, 0x60, 0x45] = .ok (.rshsRRR .x0 .x1 .x2, []) ∧
    decode [0x2A, 0x00, 0x45] = .ok (.rshsRRI .x0 .x1 0x0000, []) ∧
    decode [0x2B, 0x00, 0x80, 0x45] = .ok (.rshsRIR .x0 0x8000 .x1, []) ∧
    decode [0x2C, 0x60, 0x45] = .ok (.rshuRRR .x0 .x1 .x2, []) ∧
    decode [0x2D, 0x00, 0x45] = .ok (.rshuRRI .x0 .x1 0x0000, []) ∧
    decode [0x2E, 0x00, 0x80, 0x45] = .ok (.rshuRIR .x0 0x8000 .x1, []) := by
  refine ⟨rfl, rfl, rfl, rfl, rfl, rfl, rfl, rfl, rfl⟩

theorem test_decode_equality :
    decode [0x2F, 0x60, 0x45] = .ok (.ceqRRR .x0 .x1 .x2, []) ∧
    decode [0x30, 0x01, 0x00, 0x45] = .ok (.ceqRRI .x0 .x1 0x0001, []) ∧
    decode [0x31, 0x01, 0x00, 0x45] = .ok (.ceqRIR .x0 0x0001 .x1, []) ∧
    decode [0x32, 0x60, 0x45] = .ok (.cneRRR .x0 .x1 .x2, []) ∧
    decode [0x33, 0x01, 0x00, 0x45] = .ok (.cneRRI .x0 .x1 0x0001, []) ∧
    decode [0x34, 0x01, 0x00, 0x45] = .ok (.cneRIR .x0 0x0001 .x1, []) := by
  refine ⟨rfl, rfl, rfl, rfl, rfl, rfl⟩

theorem test_decode_order :
    decode [0x35, 0x60, 0x45] = .ok (.cltsRRR .x0 .x1 .x2, []) ∧
    decode [0x36, 0x01, 0x00, 0x45] = .ok (.cltsRRI .x0 .x1 0x0001, []) ∧
    decode [0x37, 0x01, 0x00, 0x45] = .ok (.cltsRIR .x0 0x0001 .x1, []) ∧
    decode [0x38, 0x60, 0x45] = .ok (.cltuRRR .x0 .x1 .x2, []) ∧
    decode [0x39, 0x01, 0x00, 0x45] = .ok (.cltuRRI .x0 .x1 0x0001, []) ∧
    decode [0x3A, 0x01, 0x00, 0x45] = .ok (.cltuRIR .x0 0x0001 .x1, []) ∧
    decode [0x3B, 0x60, 0x45] = .ok (.cgesRRR .x0 .x1 .x2, []) ∧
    decode [0x3C, 0x01, 0x00, 0x45] = .ok (.cgesRRI .x0 .x1 0x0001, []) ∧
    decode [0x3D, 0x01, 0x00, 0x45] = .ok (.cgesRIR .x0 0x0001 .x1, []) ∧
    decode [0x3E, 0x60, 0x45] = .ok (.cgeuRRR .x0 .x1 .x2, []) ∧
    decode [0x3F, 0x01, 0x00, 0x45] = .ok (.cgeuRRI .x0 .x1 0x0001, []) ∧
    decode [0x40, 0x01, 0x00, 0x45] = .ok (.cgeuRIR .x0 0x0001 .x1, []) := by
  refine ⟨rfl, rfl, rfl, rfl, rfl, rfl, rfl, rfl, rfl, rfl, rfl, rfl⟩

/-- The register byte has its first-named register in bits 7:4; a pad is ignored; a list that ends too early is
rejected by name (R71, R72). -/
theorem test_decode_edges :
    decode [0x11, 0x4F, 0xAA] = .ok (.pshwR .x0, [0xAA]) ∧
    decode [0x46] = .ok (.nop, []) ∧
    decode [0xFF, 0x01] = .ok (.nop, [0x01]) ∧
    decode [] = .error .noOpcode ∧
    decode [0x0E, 0xFF, 0xFF, 0x5A] = .error (.truncated 5 4) := by
  refine ⟨rfl, rfl, rfl, rfl, rfl⟩

/-- The bit numbering of spec/opcode_table.json: byte 0 is bits 7..0. -/
theorem test_decodeTableWord :
    decodeTableWord 32 0x40123402 = some (.setRI .x0 0x1234) ∧ decodeTableWord 8 0x45 = some .slp ∧
    decodeTableWord 24 0x64501C = some (.divsRRR .x2 .x0 .x1) := by decide

/-- An encoding is written with its pad 0 and its immediates first. -/
theorem test_encode :
    encode (.divsRRR .x2 .x0 .x1) = [0x1C, 0x50, 0x64] ∧ encode (.rshsRRI .x8 .x0 2) = [0x2A, 0x20, 0xC4] ∧
    encode (.stbII 0xF000 0xFF81) = [0x0A, 0x00, 0xF0, 0x81, 0xFF] := by decide

/-! ### One step for each instruction (spec/95_test_vectors.md, Part 2) -/

/-- A state with registers and bytes set. -/
def setUp (rs : List (Reg × Nat)) (ms : List (Nat × Nat)) (s : State) : State :=
  ms.foldl (fun s p => s.writeByte (BitVec.ofNat 16 p.1) (BitVec.ofNat 8 p.2))
    (rs.foldl (fun s p => s.writeReg p.1 (BitVec.ofNat 16 p.2)) s)

/-- A row of the vectors: the instruction's bytes at 0x0100 and IP there, registers and bytes before; after one
step the state is the one before with the given registers and bytes. -/
def stepGives (bs : List Byte) (rs : List (Reg × Nat)) (ms : List (Nat × Nat)) (rs' : List (Reg × Nat))
    (ms' : List (Nat × Nat)) : Bool :=
  match step ((setUp ((.ip, 0x0100) :: rs) ms State.reset).storeAtIp 0 bs) with
  | .next t => t == setUp rs' ms' ((setUp ((.ip, 0x0100) :: rs) ms State.reset).storeAtIp 0 bs)
  | .fault _ => false
  | .refused _ => false

/-- `nop`. -/
theorem test_step_nop :
    stepGives [0x00] [] [] [(.ip, 0x0101)] [] = true := by decide

/-- `set $x0, $x1`; `set $x0, $ip`. -/
theorem test_step_setRR :
    stepGives [0x01, 0x45] [(.x1, 0xBEEF)] [] [(.ip, 0x0102), (.x0, 0xBEEF)] [] = true ∧
    stepGives [0x01, 0x41] [] [] [(.ip, 0x0102), (.x0, 0x0102)] [] = true := by decide

/-- `set $x0, 0x1234`; `set $ip, 0x0400`. -/
theorem test_step_setRI :
    stepGives [0x02, 0x34, 0x12, 0x40] [] [] [(.ip, 0x0104), (.x0, 0x1234)] [] = true ∧
    stepGives [0x02, 0x00, 0x04, 0x10] [] [] [(.ip, 0x0400)] [] = true := by decide

/-- `ldb $x0, $x1`; `ldb $x0, $x0`. -/
theorem test_step_ldbRR :
    stepGives [0x03, 0x45] [(.x1, 0x2000), (.x0, 0xFFFF)] [(0x2000, 0x80)] [(.ip, 0x0102), (.x0, 0x0080)] [] = true ∧
    stepGives [0x03, 0x44] [(.x0, 0x2000)] [(0x2000, 0x7F)] [(.ip, 0x0102), (.x0, 0x007F)] [] = true := by decide

/-- `ldb $x0, 0xE000`; `ldb $x0, 0xFFFF`. -/
theorem test_step_ldbRI :
    stepGives [0x04, 0x00, 0xE0, 0x40] [] [(0xE000, 0xC8)] [(.ip, 0x0104), (.x0, 0x00C8)] [] = true ∧
    stepGives [0x04, 0xFF, 0xFF, 0x40] [] [(0xFFFF, 0xFF)] [(.ip, 0x0104), (.x0, 0x00FF)] [] = true := by decide

/-- `ldw $x0, $x1`; `ldw $ip, $x1`. -/
theorem test_step_ldwRR :
    stepGives [0x05, 0x45] [(.x1, 0xFFFF)] [(0xFFFF, 0x34), (0x0000, 0x12)] [(.ip, 0x0102), (.x0, 0x1234)] [] = true ∧
    stepGives [0x05, 0x15] [(.x1, 0x2000)] [(0x2000, 0x00), (0x2001, 0x05)] [(.ip, 0x0500)] [] = true := by decide

/-- `ldw $x2, 0x2001`. -/
theorem test_step_ldwRI :
    stepGives [0x06, 0x01, 0x20, 0x60] [] [(0x2001, 0xCD), (0x2002, 0xAB)] [(.ip, 0x0104), (.x2, 0xABCD)] [] = true := by decide

/-- `stb $x0, $x1`; `stb $x0, $x0`. -/
theorem test_step_stbRR :
    stepGives [0x07, 0x45] [(.x0, 0xF000), (.x1, 0x12FF)] [] [(.ip, 0x0102)] [(0xF000, 0xFF), (0xF001, 0x00)] = true ∧
    stepGives [0x07, 0x44] [(.x0, 0x3021)] [] [(.ip, 0x0102)] [(0x3021, 0x21)] = true := by decide

/-- `stb $x0, -1`. -/
theorem test_step_stbRI :
    stepGives [0x08, 0xFF, 0x40] [(.x0, 0x3000)] [] [(.ip, 0x0103)] [(0x3000, 0xFF), (0x3001, 0x00)] = true := by decide

/-- `stb 0xF000, $x3`. -/
theorem test_step_stbIR :
    stepGives [0x09, 0x00, 0xF0, 0x70] [(.x3, 0xAB7F)] [] [(.ip, 0x0104)] [(0xF000, 0x7F), (0xF001, 0x00)] = true := by decide

/-- `stb 0xF000, -127`. -/
theorem test_step_stbII :
    stepGives [0x0A, 0x00, 0xF0, 0x81, 0xFF] [] [] [(.ip, 0x0105)] [(0xF000, 0x81), (0xF001, 0x00)] = true := by decide

/-- `stw $x0, $x1`; `stw $x0, $ip`. -/
theorem test_step_stwRR :
    stepGives [0x0B, 0x45] [(.x0, 0xFFFF), (.x1, 0xBEEF)] [] [(.ip, 0x0102)] [(0xFFFF, 0xEF), (0x0000, 0xBE)] = true ∧
    stepGives [0x0B, 0x41] [(.x0, 0x3000)] [] [(.ip, 0x0102)] [(0x3000, 0x02), (0x3001, 0x01)] = true := by decide

/-- `stw $x0, 0x1234`. -/
theorem test_step_stwRI :
    stepGives [0x0C, 0x34, 0x12, 0x40] [(.x0, 0x3001)] [] [(.ip, 0x0104)] [(0x3001, 0x34), (0x3002, 0x12)] = true := by decide

/-- `stw 0x4000, $x5`. -/
theorem test_step_stwIR :
    stepGives [0x0D, 0x00, 0x40, 0x90] [(.x5, 0xCAFE)] [] [(.ip, 0x0104)] [(0x4000, 0xFE), (0x4001, 0xCA)] = true := by decide

/-- `stw 0xFFFF, 0xA55A`. -/
theorem test_step_stwII :
    stepGives [0x0E, 0xFF, 0xFF, 0x5A, 0xA5] [] [] [(.ip, 0x0105)] [(0xFFFF, 0x5A), (0x0000, 0xA5)] = true := by decide

/-- `pshb $x0`; `pshb $sp`. -/
theorem test_step_pshbR :
    stepGives [0x0F, 0x40] [(.x0, 0x12AB)] [] [(.ip, 0x0102), (.sp, 0xFFFF)] [(0xFFFF, 0xAB)] = true ∧
    stepGives [0x0F, 0x20] [(.sp, 0x8034)] [] [(.ip, 0x0102), (.sp, 0x8033)] [(0x8033, 0x34)] = true := by decide

/-- `pshb -2`. -/
theorem test_step_pshbI :
    stepGives [0x10, 0xFE] [(.sp, 0x8000)] [] [(.ip, 0x0102), (.sp, 0x7FFF)] [(0x7FFF, 0xFE)] = true := by decide

/-- `pshw $x0`; `pshw $sp`. -/
theorem test_step_pshwR :
    stepGives [0x11, 0x40] [(.x0, 0xA1B2), (.sp, 0x0001)] [] [(.ip, 0x0102), (.sp, 0xFFFF)] [(0xFFFF, 0xB2), (0x0000, 0xA1)] = true ∧
    stepGives [0x11, 0x20] [(.sp, 0x8000)] [] [(.ip, 0x0102), (.sp, 0x7FFE)] [(0x7FFE, 0x00), (0x7FFF, 0x80)] = true := by decide

/-- `pshw 0xBEEF`. -/
theorem test_step_pshwI :
    stepGives [0x12, 0xEF, 0xBE] [(.sp, 0x8000)] [] [(.ip, 0x0103), (.sp, 0x7FFE)] [(0x7FFE, 0xEF), (0x7FFF, 0xBE)] = true := by decide

/-- `popb $x1`; `popb $sp`. -/
theorem test_step_popbR :
    stepGives [0x13, 0x50] [(.sp, 0xFFFF), (.x1, 0xFFFF)] [(0xFFFF, 0xAB)] [(.ip, 0x0102), (.sp, 0x0000), (.x1, 0x00AB)] [] = true ∧
    stepGives [0x13, 0x20] [(.sp, 0x7000)] [(0x7000, 0xAB)] [(.ip, 0x0102), (.sp, 0x00AB)] [] = true := by decide

/-- `popw $x1`; `popw $sp`. -/
theorem test_step_popwR :
    stepGives [0x14, 0x50] [(.sp, 0xFFFF)] [(0xFFFF, 0xAB), (0x0000, 0x12)] [(.ip, 0x0102), (.sp, 0x0001), (.x1, 0x12AB)] [] = true ∧
    stepGives [0x14, 0x20] [(.sp, 0x7000)] [(0x7000, 0x00), (0x7001, 0x90)] [(.ip, 0x0102), (.sp, 0x9000)] [] = true := by decide

/-- `add $x0, $x1, $x2`; `add $x0, $x0, $x0`. -/
theorem test_step_addRRR :
    stepGives [0x15, 0x60, 0x45] [(.x1, 0xFFFF), (.x2, 0x0002)] [] [(.ip, 0x0103), (.x0, 0x0001)] [] = true ∧
    stepGives [0x15, 0x40, 0x44] [(.x0, 0x8001)] [] [(.ip, 0x0103), (.x0, 0x0002)] [] = true := by decide

/-- `add $x0, $x1, 0xFFFF`; `add $ip, $ip, 4`. -/
theorem test_step_addRRI :
    stepGives [0x16, 0xFF, 0xFF, 0x45] [(.x1, 0x0005)] [] [(.ip, 0x0104), (.x0, 0x0004)] [] = true ∧
    stepGives [0x16, 0x04, 0x00, 0x11] [] [] [(.ip, 0x0108)] [] = true := by decide

/-- `sub $x0, $x1, $x2`; `sub $x0, $x1, $x2`. -/
theorem test_step_subRRR :
    stepGives [0x17, 0x60, 0x45] [(.x1, 0x0003), (.x2, 0x0005)] [] [(.ip, 0x0103), (.x0, 0xFFFE)] [] = true ∧
    stepGives [0x17, 0x60, 0x45] [(.x1, 0x8000), (.x2, 0x0001)] [] [(.ip, 0x0103), (.x0, 0x7FFF)] [] = true := by decide

/-- `sub $x0, $x1, 0x001E`. -/
theorem test_step_subRRI :
    stepGives [0x18, 0x1E, 0x00, 0x45] [(.x1, 0x0064)] [] [(.ip, 0x0104), (.x0, 0x0046)] [] = true := by decide

/-- `sub $x0, 0x0064, $x1`. -/
theorem test_step_subRIR :
    stepGives [0x19, 0x64, 0x00, 0x45] [(.x1, 0x001E)] [] [(.ip, 0x0104), (.x0, 0x0046)] [] = true := by decide

/-- `mul $x0, $x1, $x2`; `mul $x0, $x1, $x2`. -/
theorem test_step_mulRRR :
    stepGives [0x1A, 0x60, 0x45] [(.x1, 0xFFFF), (.x2, 0xFFFF)] [] [(.ip, 0x0103), (.x0, 0x0001)] [] = true ∧
    stepGives [0x1A, 0x60, 0x45] [(.x1, 0x012C), (.x2, 0x012C)] [] [(.ip, 0x0103), (.x0, 0x5F90)] [] = true := by decide

/-- `mul $x0, $x1, 0xFFFD`. -/
theorem test_step_mulRRI :
    stepGives [0x1B, 0xFD, 0xFF, 0x45] [(.x1, 0x0007)] [] [(.ip, 0x0104), (.x0, 0xFFEB)] [] = true := by decide

/-- `divs $x0, $x1, $x2`; `divs $x0, $x1, $x2`; `divs $x0, $x1, $x2`. -/
theorem test_step_divsRRR :
    stepGives [0x1C, 0x60, 0x45] [(.x1, 0xFFF9), (.x2, 0x0002)] [] [(.ip, 0x0103), (.x0, 0xFFFD)] [] = true ∧
    stepGives [0x1C, 0x60, 0x45] [(.x1, 0x0007), (.x2, 0xFFFE)] [] [(.ip, 0x0103), (.x0, 0xFFFD)] [] = true ∧
    stepGives [0x1C, 0x60, 0x45] [(.x1, 0x8000), (.x2, 0xFFFF)] [] [(.ip, 0x0103), (.x0, 0x8000)] [] = true := by decide

/-- `divu $x0, $x1, $x2`; `divu $x0, $x1, $x2`; `divu $x0, $x1, $x2`. -/
theorem test_step_divuRRR :
    stepGives [0x1D, 0x60, 0x45] [(.x1, 0xFFF9), (.x2, 0x0002)] [] [(.ip, 0x0103), (.x0, 0x7FFC)] [] = true ∧
    stepGives [0x1D, 0x60, 0x45] [(.x1, 0x0005), (.x2, 0x0000)] [] [(.ip, 0x0103), (.x0, 0xFFFF)] [] = true ∧
    stepGives [0x1D, 0x60, 0x45] [(.x1, 0x0000), (.x2, 0x0000)] [] [(.ip, 0x0103)] [] = true := by decide

/-- `rems $x0, $x1, $x2`; `rems $x0, $x1, $x2`; `rems $x0, $x1, $x2`. -/
theorem test_step_remsRRR :
    stepGives [0x1E, 0x60, 0x45] [(.x1, 0xFFF9), (.x2, 0x0002)] [] [(.ip, 0x0103), (.x0, 0xFFFF)] [] = true ∧
    stepGives [0x1E, 0x60, 0x45] [(.x1, 0x0007), (.x2, 0xFFFE)] [] [(.ip, 0x0103), (.x0, 0x0001)] [] = true ∧
    stepGives [0x1E, 0x60, 0x45] [(.x1, 0xFFFB), (.x2, 0x0000)] [] [(.ip, 0x0103), (.x0, 0xFFFB)] [] = true := by decide

/-- `remu $x0, $x1, $x2`; `remu $x0, $x1, $x2`; `remu $x0, $x1, $x2`. -/
theorem test_step_remuRRR :
    stepGives [0x1F, 0x60, 0x45] [(.x1, 0xFFF9), (.x2, 0x0002)] [] [(.ip, 0x0103), (.x0, 0x0001)] [] = true ∧
    stepGives [0x1F, 0x60, 0x45] [(.x1, 0x0007), (.x2, 0xFFFE)] [] [(.ip, 0x0103), (.x0, 0x0007)] [] = true ∧
    stepGives [0x1F, 0x60, 0x45] [(.x1, 0xFFFB), (.x2, 0x0000)] [] [(.ip, 0x0103), (.x0, 0xFFFB)] [] = true := by decide

/-- `and $x0, $x1, $x2`. -/
theorem test_step_andRRR :
    stepGives [0x20, 0x60, 0x45] [(.x1, 0xF0F0), (.x2, 0x3C3C)] [] [(.ip, 0x0103), (.x0, 0x3030)] [] = true := by decide

/-- `and $x0, $x1, 0x00FF`. -/
theorem test_step_andRRI :
    stepGives [0x21, 0xFF, 0x00, 0x45] [(.x1, 0x12AB)] [] [(.ip, 0x0104), (.x0, 0x00AB)] [] = true := by decide

/-- `ior $x0, $x1, $x2`. -/
theorem test_step_iorRRR :
    stepGives [0x22, 0x60, 0x45] [(.x1, 0xF0F0), (.x2, 0x3C3C)] [] [(.ip, 0x0103), (.x0, 0xFCFC)] [] = true := by decide

/-- `ior $x0, $x1, 0x0034`. -/
theorem test_step_iorRRI :
    stepGives [0x23, 0x34, 0x00, 0x45] [(.x1, 0x1200)] [] [(.ip, 0x0104), (.x0, 0x1234)] [] = true := by decide

/-- `xor $x0, $x1, $x2`. -/
theorem test_step_xorRRR :
    stepGives [0x24, 0x60, 0x45] [(.x1, 0xF0F0), (.x2, 0x3C3C)] [] [(.ip, 0x0103), (.x0, 0xCCCC)] [] = true := by decide

/-- `xor $x0, $x1, 0xFFFF`. -/
theorem test_step_xorRRI :
    stepGives [0x25, 0xFF, 0xFF, 0x45] [(.x1, 0x1234)] [] [(.ip, 0x0104), (.x0, 0xEDCB)] [] = true := by decide

/-- `lsh $x0, $x1, $x2`; `lsh $x0, $x1, $x2`. -/
theorem test_step_lshRRR :
    stepGives [0x26, 0x60, 0x45] [(.x1, 0x8001), (.x2, 0x000F)] [] [(.ip, 0x0103), (.x0, 0x8000)] [] = true ∧
    stepGives [0x26, 0x60, 0x45] [(.x1, 0x8001), (.x2, 0x0010)] [] [(.ip, 0x0103)] [] = true := by decide

/-- `lsh $x0, $x1, 4`. -/
theorem test_step_lshRRI :
    stepGives [0x27, 0x40, 0x45] [(.x1, 0xFF80)] [] [(.ip, 0x0103), (.x0, 0xF800)] [] = true := by decide

/-- `lsh $x0, 0x8000, $x1`. -/
theorem test_step_lshRIR :
    stepGives [0x28, 0x00, 0x80, 0x45] [(.x1, 0x0004)] [] [(.ip, 0x0104)] [] = true := by decide

/-- `rshs $x0, $x1, $x2`; `rshs $x0, $x1, $x2`. -/
theorem test_step_rshsRRR :
    stepGives [0x29, 0x60, 0x45] [(.x1, 0x8001), (.x2, 0x000F)] [] [(.ip, 0x0103), (.x0, 0xFFFF)] [] = true ∧
    stepGives [0x29, 0x60, 0x45] [(.x1, 0x8001), (.x2, 0x0010)] [] [(.ip, 0x0103), (.x0, 0xFFFF)] [] = true := by decide

/-- `rshs $x0, $x1, 4`. -/
theorem test_step_rshsRRI :
    stepGives [0x2A, 0x40, 0x45] [(.x1, 0xFF80)] [] [(.ip, 0x0103), (.x0, 0xFFF8)] [] = true := by decide

/-- `rshs $x0, 0x8000, $x1`. -/
theorem test_step_rshsRIR :
    stepGives [0x2B, 0x00, 0x80, 0x45] [(.x1, 0x0004)] [] [(.ip, 0x0104), (.x0, 0xF800)] [] = true := by decide

/-- `rshu $x0, $x1, $x2`; `rshu $x0, $x1, $x2`. -/
theorem test_step_rshuRRR :
    stepGives [0x2C, 0x60, 0x45] [(.x1, 0x8001), (.x2, 0x000F)] [] [(.ip, 0x0103), (.x0, 0x0001)] [] = true ∧
    stepGives [0x2C, 0x60, 0x45] [(.x1, 0x8001), (.x2, 0x0010)] [] [(.ip, 0x0103)] [] = true := by decide

/-- `rshu $x0, $x1, 4`. -/
theorem test_step_rshuRRI :
    stepGives [0x2D, 0x40, 0x45] [(.x1, 0xFF80)] [] [(.ip, 0x0103), (.x0, 0x0FF8)] [] = true := by decide

/-- `rshu $x0, 0x8000, $x1`. -/
theorem test_step_rshuRIR :
    stepGives [0x2E, 0x00, 0x80, 0x45] [(.x1, 0x0004)] [] [(.ip, 0x0104), (.x0, 0x0800)] [] = true := by decide

/-- `ceq $x0, $x1, $x2`; `ceq $x0, $x1, $x2`. -/
theorem test_step_ceqRRR :
    stepGives [0x2F, 0x60, 0x45] [(.x0, 0xAAAA), (.x1, 0x0005), (.x2, 0x0005)] [] [(.ip, 0x0103), (.x0, 0x0001)] [] = true ∧
    stepGives [0x2F, 0x60, 0x45] [(.x0, 0xAAAA), (.x1, 0xFFFF), (.x2, 0x0001)] [] [(.ip, 0x0103), (.x0, 0x0000)] [] = true := by decide

/-- `ceq $x0, $x1, 0x0001`. -/
theorem test_step_ceqRRI :
    stepGives [0x30, 0x01, 0x00, 0x45] [(.x0, 0xAAAA), (.x1, 0xFFFF)] [] [(.ip, 0x0104), (.x0, 0x0000)] [] = true := by decide

/-- `ceq $x0, 0x0001, $x1`. -/
theorem test_step_ceqRIR :
    stepGives [0x31, 0x01, 0x00, 0x45] [(.x0, 0xAAAA), (.x1, 0xFFFF)] [] [(.ip, 0x0104), (.x0, 0x0000)] [] = true := by decide

/-- `cne $x0, $x1, $x2`; `cne $x0, $x1, $x2`. -/
theorem test_step_cneRRR :
    stepGives [0x32, 0x60, 0x45] [(.x0, 0xAAAA), (.x1, 0x0005), (.x2, 0x0005)] [] [(.ip, 0x0103), (.x0, 0x0000)] [] = true ∧
    stepGives [0x32, 0x60, 0x45] [(.x0, 0xAAAA), (.x1, 0xFFFF), (.x2, 0x0001)] [] [(.ip, 0x0103), (.x0, 0x0001)] [] = true := by decide

/-- `cne $x0, $x1, 0x0001`. -/
theorem test_step_cneRRI :
    stepGives [0x33, 0x01, 0x00, 0x45] [(.x0, 0xAAAA), (.x1, 0xFFFF)] [] [(.ip, 0x0104), (.x0, 0x0001)] [] = true := by decide

/-- `cne $x0, 0x0001, $x1`. -/
theorem test_step_cneRIR :
    stepGives [0x34, 0x01, 0x00, 0x45] [(.x0, 0xAAAA), (.x1, 0xFFFF)] [] [(.ip, 0x0104), (.x0, 0x0001)] [] = true := by decide

/-- `clts $x0, $x1, $x2`; `clts $x0, $x1, $x2`. -/
theorem test_step_cltsRRR :
    stepGives [0x35, 0x60, 0x45] [(.x0, 0xAAAA), (.x1, 0xFFFF), (.x2, 0x0001)] [] [(.ip, 0x0103), (.x0, 0x0001)] [] = true ∧
    stepGives [0x35, 0x60, 0x45] [(.x0, 0xAAAA), (.x1, 0x7FFF), (.x2, 0x8000)] [] [(.ip, 0x0103), (.x0, 0x0000)] [] = true := by decide

/-- `clts $x0, $x1, 0x0001`. -/
theorem test_step_cltsRRI :
    stepGives [0x36, 0x01, 0x00, 0x45] [(.x0, 0xAAAA), (.x1, 0xFFFF)] [] [(.ip, 0x0104), (.x0, 0x0001)] [] = true := by decide

/-- `clts $x0, 0x0001, $x1`. -/
theorem test_step_cltsRIR :
    stepGives [0x37, 0x01, 0x00, 0x45] [(.x0, 0xAAAA), (.x1, 0xFFFF)] [] [(.ip, 0x0104), (.x0, 0x0000)] [] = true := by decide

/-- `cltu $x0, $x1, $x2`; `cltu $x0, $x1, $x2`. -/
theorem test_step_cltuRRR :
    stepGives [0x38, 0x60, 0x45] [(.x0, 0xAAAA), (.x1, 0xFFFF), (.x2, 0x0001)] [] [(.ip, 0x0103), (.x0, 0x0000)] [] = true ∧
    stepGives [0x38, 0x60, 0x45] [(.x0, 0xAAAA), (.x1, 0x7FFF), (.x2, 0x8000)] [] [(.ip, 0x0103), (.x0, 0x0001)] [] = true := by decide

/-- `cltu $x0, $x1, 0x0001`. -/
theorem test_step_cltuRRI :
    stepGives [0x39, 0x01, 0x00, 0x45] [(.x0, 0xAAAA), (.x1, 0xFFFF)] [] [(.ip, 0x0104), (.x0, 0x0000)] [] = true := by decide

/-- `cltu $x0, 0x0001, $x1`. -/
theorem test_step_cltuRIR :
    stepGives [0x3A, 0x01, 0x00, 0x45] [(.x0, 0xAAAA), (.x1, 0xFFFF)] [] [(.ip, 0x0104), (.x0, 0x0001)] [] = true := by decide

/-- `cges $x0, $x1, $x2`; `cges $x0, $x1, $x2`. -/
theorem test_step_cgesRRR :
    stepGives [0x3B, 0x60, 0x45] [(.x0, 0xAAAA), (.x1, 0x0005), (.x2, 0x0005)] [] [(.ip, 0x0103), (.x0, 0x0001)] [] = true ∧
    stepGives [0x3B, 0x60, 0x45] [(.x0, 0xAAAA), (.x1, 0xFFFF), (.x2, 0x0001)] [] [(.ip, 0x0103), (.x0, 0x0000)] [] = true := by decide

/-- `cges $x0, $x1, 0x0001`. -/
theorem test_step_cgesRRI :
    stepGives [0x3C, 0x01, 0x00, 0x45] [(.x0, 0xAAAA), (.x1, 0xFFFF)] [] [(.ip, 0x0104), (.x0, 0x0000)] [] = true := by decide

/-- `cges $x0, 0x0001, $x1`. -/
theorem test_step_cgesRIR :
    stepGives [0x3D, 0x01, 0x00, 0x45] [(.x0, 0xAAAA), (.x1, 0xFFFF)] [] [(.ip, 0x0104), (.x0, 0x0001)] [] = true := by decide

/-- `cgeu $x0, $x1, $x2`; `cgeu $x0, $x1, $x2`. -/
theorem test_step_cgeuRRR :
    stepGives [0x3E, 0x60, 0x45] [(.x0, 0xAAAA), (.x1, 0x0005), (.x2, 0x0005)] [] [(.ip, 0x0103), (.x0, 0x0001)] [] = true ∧
    stepGives [0x3E, 0x60, 0x45] [(.x0, 0xAAAA), (.x1, 0xFFFF), (.x2, 0x0001)] [] [(.ip, 0x0103), (.x0, 0x0001)] [] = true := by decide

/-- `cgeu $x0, $x1, 0x0001`. -/
theorem test_step_cgeuRRI :
    stepGives [0x3F, 0x01, 0x00, 0x45] [(.x0, 0xAAAA), (.x1, 0xFFFF)] [] [(.ip, 0x0104), (.x0, 0x0001)] [] = true := by decide

/-- `cgeu $x0, 0x0001, $x1`. -/
theorem test_step_cgeuRIR :
    stepGives [0x40, 0x01, 0x00, 0x45] [(.x0, 0xAAAA), (.x1, 0xFFFF)] [] [(.ip, 0x0104), (.x0, 0x0000)] [] = true := by decide

/-- `jmp $ac`; `jmp $ip`. -/
theorem test_step_jmpR :
    stepGives [0x41, 0x30] [(.ac, 0x0300)] [] [(.ip, 0x0300), (.ac, 0x0102)] [] = true ∧
    stepGives [0x41, 0x10] [] [] [(.ip, 0x0102), (.ac, 0x0102)] [] = true := by decide

/-- `jmp 0x0040`. -/
theorem test_step_jmpI :
    stepGives [0x42, 0x40, 0x00] [] [] [(.ip, 0x0040), (.ac, 0x0103)] [] = true := by decide

/-- `jmz $x0, $x1`; `jmz $x0, $x1`. -/
theorem test_step_jmzRR :
    stepGives [0x43, 0x45] [(.x1, 0x0200)] [] [(.ip, 0x0200)] [] = true ∧
    stepGives [0x43, 0x45] [(.x0, 0x0001), (.x1, 0x0200)] [] [(.ip, 0x0102)] [] = true := by decide

/-- `jmz $x0, 0x0200`; `jmz $x0, 0x0200`. -/
theorem test_step_jmzRI :
    stepGives [0x44, 0x00, 0x02, 0x40] [] [] [(.ip, 0x0200)] [] = true ∧
    stepGives [0x44, 0x00, 0x02, 0x40] [(.x0, 0x0100)] [] [(.ip, 0x0104)] [] = true := by decide

/-- `slp`. -/
theorem test_step_slp :
    stepGives [0x45] [] [] [(.ip, 0x0101)] [] = true := by decide

/-- DIVS by zero: a positive, a negative and a zero dividend (S7). -/
theorem test_step_divsRRR_zero :
    stepGives [0x1C, 0x60, 0x45] [(.x1, 0x0005), (.x2, 0x0000)] [] [(.ip, 0x0103), (.x0, 0x7FFF)] [] = true ∧
    stepGives [0x1C, 0x60, 0x45] [(.x1, 0xFFFB), (.x2, 0x0000)] [] [(.ip, 0x0103), (.x0, 0x8000)] [] = true ∧
    stepGives [0x1C, 0x60, 0x45] [(.x1, 0x0000), (.x2, 0x0000)] [] [(.ip, 0x0103)] [] = true := by decide

/-! ### The step at the edges, the driver, the other parameter values -/

/-- P8 (a): an instruction across the end of memory. -/
theorem test_step_wraps :
    step (setUp [(.ip, 0xFFFE)] [(0xFFFE, 0x02), (0xFFFF, 0x34), (0x0000, 0x12), (0x0001, 0x40)] State.reset) =
      .next (setUp [(.ip, 0x0002), (.x0, 0x1234)]
        [(0xFFFE, 0x02), (0xFFFF, 0x34), (0x0000, 0x12), (0x0001, 0x40)] State.reset) := by rfl

/-- P7: bytes with no row in the table are one-byte NOPs. -/
theorem test_step_unknown :
    stepGives [0xFF] [] [] [(.ip, 0x0101)] [] = true ∧ stepGives [0x46] [] [] [(.ip, 0x0101)] [] = true := by
  decide

/-- R261: the first step after reset is the NOP that the fill stands for. -/
theorem test_step_reset : step State.reset = .next (State.reset.writeReg .ip 1) := by rfl

/-- The next step runs the word that `withFetchWord` places (`set $x0, 0x1234`). -/
theorem test_withFetchWord :
    (match step (State.reset.withFetchWord 32 0x40123402) with
      | .next t => t.readReg .x0 == 0x1234 && t.readReg .ip == 4
      | .fault _ => false
      | .refused _ => false) = true := by decide

/-- `SHIFT_MODE = mod16` (Part 2, "Shifts by 16 or more under `SHIFT_MODE = mod16`"). -/
theorem test_shift_mod16 :
    aluLsh .mod16 0x8001 0x0010 = 0x8001 ∧ aluLsh .mod16 0x8001 0x0011 = 0x0002 ∧
    aluLsh .mod16 0x8001 0xFFFF = 0x8000 ∧ aluRshs .mod16 0x8001 0x0010 = 0x8001 ∧
    aluRshs .mod16 0x8001 0x0011 = 0xC000 ∧ aluRshs .mod16 0x8001 0xFFFF = 0xFFFF ∧
    aluRshu .mod16 0x8001 0x0010 = 0x8001 ∧ aluRshu .mod16 0x8001 0x0011 = 0x4000 ∧
    aluRshu .mod16 0x8001 0xFFFF = 0x0001 := by decide

/-- The other values of `DIVS_ROUND` and `BYTE_LOAD_EXT` (by hand: -7 / 2 rounded down is -4, remainder 1). -/
theorem test_other_parameters :
    aluDivs .floor 0xFFF9 0x0002 = 0xFFFC ∧ aluRems .floor 0xFFF9 0x0002 = 0x0001 ∧
    widenByte .sign 0x80 = 0xFF80 ∧ widenByte .zero 0x80 = 0x0080 := by decide

/-- `PAD_CHECK = refuse` (U3): `pshb $x0` with a pad of 1, and with a pad of 0. -/
theorem test_padCheck_refuse :
    (State.reset.storeAtIp 0 [0x0F, 0x41]).admission { params with padCheck := .refuse } = some .padNotZero ∧
    (State.reset.storeAtIp 0 [0x0F, 0x40]).admission { params with padCheck := .refuse } = none := by decide

/-- `ADDR_WRAP = refuse` (U7): the first push after reset; a word load at 0xFFFF; IP past 0xFFFF; and a word load
at 0xFFFE. -/
theorem test_addrWrap_refuse :
    (State.reset.storeAtIp 0 [0x11, 0x40]).admission { params with addrWrap := .refuse } = some .addressWraps ∧
    (State.reset.storeAtIp 0 [0x06, 0xFF, 0xFF, 0x40]).admission { params with addrWrap := .refuse } =
      some .addressWraps ∧
    (setUp [(.ip, 0xFFFF)] [] State.reset).admission { params with addrWrap := .refuse } = some .addressWraps ∧
    (State.reset.storeAtIp 0 [0x06, 0xFE, 0xFF, 0x40]).admission { params with addrWrap := .refuse } = none := by
  decide

/-- `ALIAS_ORDER = refuse` (U8): `jmp $ac`, and `jmp $x0`. -/
theorem test_aliasOrder_refuse :
    (State.reset.storeAtIp 0 [0x41, 0x30]).admission { params with aliasOrder := .refuse } =
      some .aliasedOperand ∧
    (State.reset.storeAtIp 0 [0x41, 0x40]).admission { params with aliasOrder := .refuse } = none := by decide

/-- The driver writes an input port and reads the output ports between steps (P4). -/
theorem test_driver :
    Driver.observe (Driver.poke State.reset 0xE000 0x20) = [0, 0, 0, 0] ∧
    Driver.peek (Driver.poke State.reset 0xE000 0x20) 0xE000 = 0x20 ∧
    Driver.admitted ⟨0xE001, 0⟩ = true ∧ Driver.admitted ⟨0xF000, 0⟩ = false := by decide

/-! ### The assembler (Part 1, S3 to S6) -/

/-- S4: a forward reference is patched with the address of its label. -/
theorem test_assemble_forward :
    Assembler.assemble [.instr .jmp [.label ['x']], .label (.byName ['x']), .instr .nop []] =
      .ok (Driver.imageOfBytes [0x42, 0x03, 0x00, 0x00]) := by rfl

/-- S5 and P6 (c): a label on data. -/
theorem test_assemble_data :
    Assembler.assemble [.instr .ldw [.reg .x0, .label ['d']], .label (.byName ['e']),
      .instr .jmz [.reg .nl, .label ['e']], .label (.byName ['d']), .data [0x12, 0x34]] =
      .ok (Driver.imageOfBytes [0x06, 0x08, 0x00, 0x40, 0x44, 0x04, 0x00, 0x00, 0x12, 0x34]) := by rfl

/-- S6 and R122: duplicate, undefined, backward and pending labels. -/
theorem test_assemble_errors :
    Assembler.assemble [.label (.byName ['a']), .instr .nop [], .label (.byName ['a']), .instr .nop []] =
      .error .duplicateLabel ∧
    Assembler.assemble [.instr .jmp [.label ['a']]] = .error .undefinedLabel ∧
    Assembler.assemble [.instr .nop [], .label (.byAddress 0), .instr .nop []] = .error .addressTooLow ∧
    Assembler.assemble [.label (.byName ['a'])] = .error .labelAtEndOfFile ∧
    Assembler.assemble [.label (.byName ['a']), .label (.byName ['b']), .instr .nop []] =
      .error .multipleLabels ∧
    Assembler.assemble [.instr .pshb [.imm 256]] = .error .immediateRange := by
  refine ⟨rfl, rfl, rfl, rfl, rfl, rfl⟩

/-- The text of S4, and errors of the text. -/
theorem test_parse :
    Assembler.assembleText "jmp @x\nx: nop ; end".toList = .ok (Driver.imageOfBytes [0x42, 0x03, 0x00, 0x00]) ∧
    Assembler.assembleText "STB 0xF000, -127".toList =
      .ok (Driver.imageOfBytes [0x0A, 0x00, 0xF0, 0x81, 0xFF]) ∧
    Assembler.assembleText "set $x12, 1".toList = .error (.parsing .unknownRegister) ∧
    Assembler.assembleText "nop 1\nset $x12, 1".toList = .error (.parsing .unknownRegister) := by
  refine ⟨rfl, rfl, rfl, rfl⟩

/-! ### Witnesses: the hypotheses of each statement are met by concrete states and operands -/

/-- `set $x0, 0x1234` at 0x0100. -/
def setAt : State := (setUp [(.ip, 0x0100), (.x1, 5)] [] State.reset).storeAtIp 0 [0x02, 0x34, 0x12, 0x40]

theorem witness_StepRunsDecodedInstruction :
    decode [setAt.fetchByte 0, setAt.fetchByte 1, setAt.fetchByte 2, setAt.fetchByte 3, setAt.fetchByte 4] =
      .ok (.setRI .x0 0x1234, [0x00]) := by rfl

theorem witness_EncodeAndDecodeAreInverse :
    (Instr.pshbI 0x00FF).wf = true ∧
    decode [0x45, 0x99] = .ok (.slp, [0x99]) ∧ decode [0x46, 0x99] = .ok (.nop, [0x99]) ∧
    decode [0x11, 0x4F] = .ok (.pshwR .x0, []) := by refine ⟨rfl, rfl, rfl, rfl⟩

theorem witness_PadNibblesAreIgnored :
    (opcodeOfByte 0x11 = some .pshwR ∧ Opcode.layout .pshwR = .regA) ∧
    (opcodeOfByte 0x15 = some .addRRR ∧ Opcode.layout .addRRR = .regARegBRegC) ∧
    (opcodeOfByte 0x27 = some .lshRRI ∧ Opcode.layout .lshRRI = .regARegBImmA4) ∧
    (opcodeOfByte 0x08 = some .stbRI ∧ Opcode.layout .stbRI = .regAImmA8) ∧
    (opcodeOfByte 0x44 = some .jmzRI ∧ Opcode.layout .jmzRI = .regAImmA16) := by decide

theorem witness_UnknownOpcodeIsOneByteNop :
    0x46 ≤ (0x46 : Byte).toNat ∧ 0x46 ≤ (0xFF : Byte).toNat ∧
    0x46 ≤ ((setUp [(.ip, 0xFFFF)] [(0xFFFF, 0x46)] State.reset).readByte
      ((setUp [(.ip, 0xFFFF)] [(0xFFFF, 0x46)] State.reset).readReg .ip)).toNat := by decide

/-- Two states that differ in a byte past the instruction and in a register. -/
theorem witness_FetchReadsOnlyTheInstruction :
    (setUp [(.x0, 7)] [(0x0104, 0xEE)] setAt).readReg .ip = setAt.readReg .ip ∧
    ∀ k : Nat, k < lengthOfByte (setAt.readByte (setAt.readReg .ip)) →
      (setUp [(.x0, 7)] [(0x0104, 0xEE)] setAt).readByte (setAt.readReg .ip + BitVec.ofNat 16 k) =
        setAt.readByte (setAt.readReg .ip + BitVec.ofNat 16 k) := by decide

theorem witness_EveryInstructionButSlpCompletes : Instr.nop ≠ .slp ∧ Instr.jmzRI .nl 0xFFFF ≠ .slp := by decide

theorem witness_StepKeepsMemoryCanonical : MemoryCanonical setAt ∧ ∃ t, step setAt = .next t :=
  ⟨by unfold MemoryCanonical; decide, _, rfl⟩

theorem witness_ResetAndLoadAreCanonical :
    Memory.wf [(0x0000, 0x01), (0xFFFF, 0x02)] ∧ [(0x01 : Byte), 0x00, 0x02].length ≤ 65536 ∧
    (List.replicate 65536 (0x01 : Byte)).length ≤ 65536 := by
  refine ⟨by decide, by decide, ?_⟩
  rw [List.length_replicate]

theorem witness_RegistersNotWrittenAreUnchanged :
    (∃ t, exec (.popwR .x0) setAt = .next t) ∧ Reg.x1 ∉ writtenRegs (.popwR .x0) ∧
    Reg.sp ∈ writtenRegs (.popwR .x0) := ⟨⟨_, rfl⟩, by decide, by decide⟩

theorem witness_BytesNotStoredAreUnchanged :
    (∃ t, exec (.stwII 0xFFFF 0xA55A) setAt = .next t) ∧ (0x0001 : Word) ∉ storedAddrs (.stwII 0xFFFF 0xA55A) setAt ∧
    (0x0000 : Word) ∈ storedAddrs (.stwII 0xFFFF 0xA55A) setAt := ⟨⟨_, rfl⟩, by decide, by decide⟩

theorem witness_UnnamedGeneralRegistersTakeNoPart :
    isGeneral .x11 = true ∧ isGeneral .x0 = true ∧ Reg.x11 ∉ namedRegs (.addRRR .x0 .x1 .x2) ∧
    Reg.x0 ∉ namedRegs (.pshwI 1) ∧ (∃ t, exec (.addRRR .x0 .x1 .x2) setAt = .next t) ∧
    ∃ t, exec (.pshwI 1) setAt = .next t := ⟨by decide, by decide, by decide, by decide, ⟨_, rfl⟩, ⟨_, rfl⟩⟩

theorem witness_IpIsPastTheInstructionUnlessWritten :
    (∃ t, step setAt = .next t) ∧ Reg.ip ∉ writtenRegs setAt.fetch := ⟨⟨_, rfl⟩, by decide⟩

theorem witness_AddressArithmeticWraps : (0 : Nat) ≤ 65536 ∧ (65536 : Nat) ≤ 65536 := by decide

/-- `stw 0xFFFF, 0xA55A` at 0xFFFE: it stores over its own bytes 1 and 2, across the end of memory. -/
def storeOverSelf : State := (setUp [(.ip, 0xFFFE)] [] State.reset).storeAtIp 0 [0x0E, 0xFF, 0xFF, 0x5A, 0xA5]

/-- That state with IP past the instruction. -/
def storeOverSelfPast : State :=
  storeOverSelf.writeReg .ip (addrAdd (storeOverSelf.readReg .ip) (Instr.stwII 0xFFFF 0xA55A).length)

/-- Its bytes decode to it; it stores; each clause is met, at bytes 1 and 2 and at bytes 0 and 4. -/
theorem witness_StoreOverRunningInstruction :
    decode [storeOverSelf.fetchByte 0, storeOverSelf.fetchByte 1, storeOverSelf.fetchByte 2,
      storeOverSelf.fetchByte 3, storeOverSelf.fetchByte 4] = .ok (.stwII 0xFFFF 0xA55A, []) ∧
    storedAddrs (.stwII 0xFFFF 0xA55A) storeOverSelfPast ≠ [] ∧
    (addrAdd (storeOverSelf.readReg .ip) 1, (0x5A : Byte)) ∈ storedCells (.stwII 0xFFFF 0xA55A) storeOverSelfPast ∧
    (addrAdd (storeOverSelf.readReg .ip) 2, (0xA5 : Byte)) ∈ storedCells (.stwII 0xFFFF 0xA55A) storeOverSelfPast ∧
    addrAdd (storeOverSelf.readReg .ip) 0 ∉ storedAddrs (.stwII 0xFFFF 0xA55A) storeOverSelfPast ∧
    addrAdd (storeOverSelf.readReg .ip) 4 ∉ storedAddrs (.stwII 0xFFFF 0xA55A) storeOverSelfPast :=
  ⟨rfl, by decide, by decide, by decide, by decide, by decide⟩

theorem witness_PushThenPopRestores : Reg.x0 ≠ .sp ∧ Reg.x0 ≠ .ip ∧ Reg.nl ≠ .sp ∧ Reg.nl ≠ .ip := by decide

theorem witness_SignedAndUnsignedArithmeticAgree : Reg.x0 ≠ .nl := by decide

theorem witness_QuotientAndRemainderRecoverTheDividend :
    Reg.x0 ≠ .nl ∧ setAt.readReg .x1 ≠ 0 := by decide

theorem witness_ShiftsByAnImmediate : (0x0000 : Word).toNat < 16 ∧ (0x000F : Word).toNat < 16 := by decide

theorem witness_ShiftModesDifferOnlyFromSixteenOn : (0x000F : Word).toNat < 16 := by decide

theorem witness_NopOnlyAdvancesIp :
    (setUp [(.ip, 0xFFFF)] [] State.reset).readByte ((setUp [(.ip, 0xFFFF)] [] State.reset).readReg .ip) =
      0x00 := by decide

theorem witness_SlpStubOnlyAdvancesIp :
    (setUp [(.ip, 0x0100)] [(0x0100, 0x45)] State.reset).readByte
      ((setUp [(.ip, 0x0100)] [(0x0100, 0x45)] State.reset).readReg .ip) = 0x45 := by decide

/-- `jmz $nl, 0x0100` and `jmp 0x0100`, each at 0x0100. -/
theorem witness_JumpToItselfTerminates :
    (∀ k : Nat, k < 4 → ((setUp [(.ip, 0x0100)] [] State.reset).storeAtIp 0 [0x44, 0x00, 0x01, 0x00]).fetchByte k =
      (encode (.jmzRI .nl (((setUp [(.ip, 0x0100)] [] State.reset).storeAtIp 0
        [0x44, 0x00, 0x01, 0x00]).readReg .ip))).getD k 0) ∧
    (∀ k : Nat, k < 3 → ((setUp [(.ip, 0x0100)] [] State.reset).storeAtIp 0 [0x42, 0x00, 0x01]).fetchByte k =
      (encode (.jmpI (((setUp [(.ip, 0x0100)] [] State.reset).storeAtIp 0
        [0x42, 0x00, 0x01]).readReg .ip))).getD k 0) := by decide

theorem witness_ImageHoldsItsBytesThenZeros :
    [(0x01 : Byte), 0x00, 0x02].length ≤ 65536 ∧ (List.replicate 65536 (0x01 : Byte)).length ≤ 65536 := by
  refine ⟨by decide, ?_⟩
  rw [List.length_replicate]

/-- Admitted writes and the address after the ports; a list that leaves port 0xE000 alone; and, after a write to
0xE000, writes that go to the other port. -/
theorem witness_DriverReachesOnlyTheInputPorts :
    ((∀ p ∈ [(⟨0xE000, 0x20⟩ : Driver.Poke), ⟨0xE001, 0x02⟩], Driver.admitted p = true) ∧
      (0xE002 : Word) ≠ 0xE000 ∧ (0xE002 : Word) ≠ 0xE001) ∧
    (∀ p ∈ [(⟨0xE001, 0x02⟩ : Driver.Poke), ⟨0xDFFF, 0x03⟩], p.addr ≠ 0xE000) ∧
    (∀ q ∈ [(⟨0xE001, 0x02⟩ : Driver.Poke), ⟨0xE001, 0x03⟩], q.addr ≠ (⟨0xE000, 0x20⟩ : Driver.Poke).addr) := by
  decide

theorem witness_AssemblerSelectsTheInstruction :
    (Instr.stbII 0xF000 0x00FF).wf = true ∧
    ∀ addr v, Instr.stbII 0xF000 0x00FF = .stbII addr v → v.toNat < 256 := by
  refine ⟨by decide, fun addr v h => ?_⟩
  cases h
  decide

theorem witness_OneLineProgramBecomesItsBytes :
    (Instr.lshRRI .x0 .x1 15).wf = true ∧
    ∀ addr v, Instr.lshRRI .x0 .x1 15 = .stbII addr v → v.toNat < 256 :=
  ⟨by decide, fun addr v h => nomatch h⟩

theorem witness_ForwardReferenceIsPatched :
    (Instr.stbII 0xF000 0x00FF).wf = true ∧
    ∀ addr v, Instr.stbII 0xF000 0x00FF = .stbII addr v → v.toNat < 256 :=
  witness_AssemblerSelectsTheInstruction

end Sys2Proof.Tests
end

/-! A general register that an instruction does not name takes no part in it (10_state.md R19). What an
instruction computes and what it does to the state are built from register reads, memory reads, register writes
and stores; each of these ignores a register that it does not name, and so does whatever is built from them. -/

namespace Sys2Proof.Machine

/-- A value computed from the state is the same whatever the register `r` holds. -/
def ValueIgnores (r : Reg) (g : State → Word) : Prop := ∀ s v, g (s.writeReg r v) = g s

/-- A change of the state that commutes with every write of the register `r`: it neither reads nor writes `r`. -/
def UpdateIgnores (r : Reg) (f : State → State) : Prop := ∀ s v, f (s.writeReg r v) = (f s).writeReg r v

/-- X0 to X11 are other registers than NL, IP, SP and AC. -/
theorem ne_of_isGeneral {r q : Reg} (hr : isGeneral r = true) (hq : isGeneral q = false) : r ≠ q := by
  rintro rfl
  exact absurd hr (by simp [hq])

section
variable {r d q : Reg} {f : State → State} {g g' : State → Word}

/-! ### Values -/

theorem valueIgnores_const (w : Word) : ValueIgnores r fun _ => w := fun _ _ => rfl

theorem valueIgnores_readReg (h : r ≠ q) : ValueIgnores r fun s => s.readReg q :=
  fun s v => readReg_writeReg_ne s h.symm v

theorem ValueIgnores.map (hg : ValueIgnores r g) (k : Word → Word) : ValueIgnores r fun s => k (g s) :=
  fun s v => congrArg k (hg s v)

theorem ValueIgnores.map₂ (hg : ValueIgnores r g) (hg' : ValueIgnores r g') (k : Word → Word → Word) :
    ValueIgnores r fun s => k (g s) (g' s) :=
  fun s v => congrArg₂ k (hg s v) (hg' s v)

theorem ValueIgnores.memRead1 (ha : ValueIgnores r g) : ValueIgnores r fun s => s.memRead1 (g s) :=
  fun s v => congrArg s.memRead1 (ha s v)

theorem ValueIgnores.memRead2 (ha : ValueIgnores r g) : ValueIgnores r fun s => s.memRead2 (g s) :=
  fun s v => congrArg s.memRead2 (ha s v)

/-! ### Changes of the state -/

theorem updateIgnores_id : UpdateIgnores r fun s => s := fun _ _ => rfl

theorem UpdateIgnores.writeReg (hf : UpdateIgnores r f) (hd : r ≠ d) (hg : ValueIgnores r g) :
    UpdateIgnores r fun s => (f s).writeReg d (g s) := fun s v => by
  simp only [hf s v, hg s v, writeReg_comm (f s) hd]

theorem UpdateIgnores.memWrite1 (hf : UpdateIgnores r f) (ha : ValueIgnores r g) (hw : ValueIgnores r g') :
    UpdateIgnores r fun s => (f s).memWrite1 (g s) (g' s) := fun s v => by
  simp only [hf s v, ha s v, hw s v, State.memWrite1, writeReg_writeByte]

theorem UpdateIgnores.memWrite2 (hf : UpdateIgnores r f) (ha : ValueIgnores r g) (hw : ValueIgnores r g') :
    UpdateIgnores r fun s => (f s).memWrite2 (g s) (g' s) := fun s v => by
  simp only [hf s v, ha s v, hw s v, State.memWrite2, writeReg_writeByte]

/-- A register write from the current state, the effect of most instructions. -/
theorem updateIgnores_writeReg (hd : r ≠ d) (hg : ValueIgnores r g) :
    UpdateIgnores r fun s => s.writeReg d (g s) := updateIgnores_id.writeReg hd hg

theorem updateIgnores_memWrite1 (ha : ValueIgnores r g) (hw : ValueIgnores r g') :
    UpdateIgnores r fun s => s.memWrite1 (g s) (g' s) := updateIgnores_id.memWrite1 ha hw

theorem updateIgnores_memWrite2 (ha : ValueIgnores r g) (hw : ValueIgnores r g') :
    UpdateIgnores r fun s => s.memWrite2 (g s) (g' s) := updateIgnores_id.memWrite2 ha hw

/-! ### The operand frames, the stack and control transfer -/

theorem updateIgnores_opRRR (k : Word → Word → Word) {s1 s2 : Reg} (hd : r ≠ d) (h1 : r ≠ s1) (h2 : r ≠ s2) :
    UpdateIgnores r fun s => s.opRRR k d s1 s2 :=
  updateIgnores_writeReg hd ((valueIgnores_readReg h1).map₂ (valueIgnores_readReg h2) k)

theorem updateIgnores_opRRI (k : Word → Word → Word) {s1 : Reg} (w : Word) (hd : r ≠ d) (h1 : r ≠ s1) :
    UpdateIgnores r fun s => s.opRRI k d s1 w :=
  updateIgnores_writeReg hd ((valueIgnores_readReg h1).map fun p => k p w)

theorem updateIgnores_opRIR (k : Word → Word → Word) (w : Word) {s2 : Reg} (hd : r ≠ d) (h2 : r ≠ s2) :
    UpdateIgnores r fun s => s.opRIR k d w s2 :=
  updateIgnores_writeReg hd ((valueIgnores_readReg h2).map (k w))

/-- Where the stack pointer moves to. -/
theorem valueIgnores_movedSp (hsp : r ≠ .sp) (k : Int) :
    ValueIgnores r fun s => addrAdd (s.readReg .sp) k :=
  (valueIgnores_readReg hsp).map (addrAdd · k)

theorem updateIgnores_push1 (hsp : r ≠ .sp) (hg : ValueIgnores r g) :
    UpdateIgnores r fun s => s.push1 (g s) :=
  (updateIgnores_writeReg hsp (valueIgnores_movedSp hsp _)).memWrite1 (valueIgnores_movedSp hsp _) hg

theorem updateIgnores_push2 (hsp : r ≠ .sp) (hg : ValueIgnores r g) :
    UpdateIgnores r fun s => s.push2 (g s) :=
  (updateIgnores_writeReg hsp (valueIgnores_movedSp hsp _)).memWrite2 (valueIgnores_movedSp hsp _) hg

theorem updateIgnores_pop1 (hsp : r ≠ .sp) (hd : r ≠ d) : UpdateIgnores r fun s => s.pop1 d :=
  (updateIgnores_writeReg hsp (valueIgnores_movedSp hsp _)).writeReg hd (valueIgnores_readReg hsp).memRead1

theorem updateIgnores_pop2 (hsp : r ≠ .sp) (hd : r ≠ d) : UpdateIgnores r fun s => s.pop2 d :=
  (updateIgnores_writeReg hsp (valueIgnores_movedSp hsp _)).writeReg hd (valueIgnores_readReg hsp).memRead2

theorem updateIgnores_linkAndJump (hip : r ≠ .ip) (hac : r ≠ .ac) (hg : ValueIgnores r g) :
    UpdateIgnores r fun s => s.linkAndJump (g s) :=
  (updateIgnores_writeReg hac (valueIgnores_readReg hip)).writeReg hip hg

/-- The condition is the same whatever `r` holds, so both runs jump or neither does. -/
theorem updateIgnores_jumpIfZero (links : Bool) (hip : r ≠ .ip) (hac : r ≠ .ac)
    (hc : ValueIgnores r g) (ht : ValueIgnores r g') :
    UpdateIgnores r fun s => s.jumpIfZero links (g s) (g' s) := fun s v => by
  have hlink := updateIgnores_linkAndJump hip hac ht s v
  have hjump := updateIgnores_writeReg hip ht s v
  simp only [State.jumpIfZero, hc s v]
  split
  · cases links
    · exact hjump
    · exact hlink
  · rfl

end

/-! ### All instructions -/

/-- Every instruction completes in every state, with an update that ignores the general registers it does not
name. -/
theorem exec_updateIgnores {i : Instr} {r : Reg} (hg : isGeneral r = true) (hr : r ∉ namedRegs i) :
    ∃ f : State → State, (∀ s, exec i s = .next (f s)) ∧ UpdateIgnores r f := by
  have hip : r ≠ .ip := ne_of_isGeneral hg rfl
  have hsp : r ≠ .sp := ne_of_isGeneral hg rfl
  have hac : r ≠ .ac := ne_of_isGeneral hg rfl
  have hnamed : r ≠ i.fields.a ∧ r ≠ i.fields.b ∧ r ≠ i.fields.c := by simpa [namedRegs] using hr
  obtain ⟨ha, hb, hc⟩ := hnamed
  cases i with
  | nop | slp => exact ⟨_, fun _ => rfl, updateIgnores_id⟩
  | setRR => exact ⟨_, fun _ => rfl, updateIgnores_writeReg ha (valueIgnores_readReg hb)⟩
  | setRI => exact ⟨_, fun _ => rfl, updateIgnores_writeReg ha (valueIgnores_const _)⟩
  | ldbRR => exact ⟨_, fun _ => rfl, updateIgnores_writeReg ha (valueIgnores_readReg hb).memRead1⟩
  | ldbRI => exact ⟨_, fun _ => rfl, updateIgnores_writeReg ha (valueIgnores_const _).memRead1⟩
  | ldwRR => exact ⟨_, fun _ => rfl, updateIgnores_writeReg ha (valueIgnores_readReg hb).memRead2⟩
  | ldwRI => exact ⟨_, fun _ => rfl, updateIgnores_writeReg ha (valueIgnores_const _).memRead2⟩
  | stbRR => exact ⟨_, fun _ => rfl, updateIgnores_memWrite1 (valueIgnores_readReg ha) (valueIgnores_readReg hb)⟩
  | stbRI => exact ⟨_, fun _ => rfl, updateIgnores_memWrite1 (valueIgnores_readReg ha) (valueIgnores_const _)⟩
  | stbIR => exact ⟨_, fun _ => rfl, updateIgnores_memWrite1 (valueIgnores_const _) (valueIgnores_readReg ha)⟩
  | stbII => exact ⟨_, fun _ => rfl, updateIgnores_memWrite1 (valueIgnores_const _) (valueIgnores_const _)⟩
  | stwRR => exact ⟨_, fun _ => rfl, updateIgnores_memWrite2 (valueIgnores_readReg ha) (valueIgnores_readReg hb)⟩
  | stwRI => exact ⟨_, fun _ => rfl, updateIgnores_memWrite2 (valueIgnores_readReg ha) (valueIgnores_const _)⟩
  | stwIR => exact ⟨_, fun _ => rfl, updateIgnores_memWrite2 (valueIgnores_const _) (valueIgnores_readReg ha)⟩
  | stwII => exact ⟨_, fun _ => rfl, updateIgnores_memWrite2 (valueIgnores_const _) (valueIgnores_const _)⟩
  | pshbR => exact ⟨_, fun _ => rfl, updateIgnores_push1 hsp (valueIgnores_readReg ha)⟩
  | pshbI => exact ⟨_, fun _ => rfl, updateIgnores_push1 hsp (valueIgnores_const _)⟩
  | pshwR => exact ⟨_, fun _ => rfl, updateIgnores_push2 hsp (valueIgnores_readReg ha)⟩
  | pshwI => exact ⟨_, fun _ => rfl, updateIgnores_push2 hsp (valueIgnores_const _)⟩
  | popbR => exact ⟨_, fun _ => rfl, updateIgnores_pop1 hsp ha⟩
  | popwR => exact ⟨_, fun _ => rfl, updateIgnores_pop2 hsp ha⟩
  | addRRR | subRRR | mulRRR | divsRRR | divuRRR | remsRRR | remuRRR | andRRR | iorRRR | xorRRR
  | lshRRR | rshsRRR | rshuRRR | ceqRRR | cneRRR | cltsRRR | cltuRRR | cgesRRR | cgeuRRR =>
    exact ⟨_, fun _ => rfl, updateIgnores_opRRR _ ha hb hc⟩
  | addRRI | subRRI | mulRRI | andRRI | iorRRI | xorRRI | lshRRI | rshsRRI | rshuRRI | ceqRRI
  | cneRRI | cltsRRI | cltuRRI | cgesRRI | cgeuRRI =>
    exact ⟨_, fun _ => rfl, updateIgnores_opRRI _ _ ha hb⟩
  | subRIR | lshRIR | rshsRIR | rshuRIR | ceqRIR | cneRIR | cltsRIR | cltuRIR | cgesRIR | cgeuRIR =>
    exact ⟨_, fun _ => rfl, updateIgnores_opRIR _ _ ha hb⟩
  | jmpR => exact ⟨_, fun _ => rfl, updateIgnores_linkAndJump hip hac (valueIgnores_readReg ha)⟩
  | jmpI => exact ⟨_, fun _ => rfl, updateIgnores_linkAndJump hip hac (valueIgnores_const _)⟩
  | jmzRR =>
    exact ⟨_, fun _ => rfl,
      updateIgnores_jumpIfZero _ hip hac (valueIgnores_readReg ha) (valueIgnores_readReg hb)⟩
  | jmzRI =>
    exact ⟨_, fun _ => rfl, updateIgnores_jumpIfZero _ hip hac (valueIgnores_readReg ha) (valueIgnores_const _)⟩

/-- An update that ignores `r` leaves it as it is: writing back what `r` held, before or after it, is the same. -/
theorem UpdateIgnores.readReg_eq {r : Reg} {f : State → State} (hf : UpdateIgnores r f) (hnl : r ≠ .nl)
    (s : State) : (f s).readReg r = s.readReg r := by
  have h : f s = (f s).writeReg r (s.readReg r) := by rw [← hf, writeReg_readReg]
  rw [h, readReg_writeReg_same (f s) hnl]

/-- Settles O13: the instruction is an update that commutes with every write of the unnamed register. -/
theorem unnamedGeneralRegistersTakeNoPart : Obligations.UnnamedGeneralRegistersTakeNoPart := by
  intro i s t r v hg hr hst
  obtain ⟨f, hexec, hf⟩ := exec_updateIgnores hg hr
  obtain rfl : f s = t := Host.Outcome.next.inj ((hexec s).symm.trans hst)
  exact ⟨hf.readReg_eq (ne_of_isGeneral hg rfl) s, (hexec _).trans (congrArg Host.Outcome.next (hf s v))⟩

end Sys2Proof.Machine

/-! Encode and decode are inverse on legal operands (30_encoding.md R86). Both compositions are compared byte by
byte with the encoding's own layout: encoding then decoding drops nothing, and decoding then encoding drops two
things only, an opcode byte that has no row (R92) and the pad (R72). -/

namespace Sys2Proof

open Machine

/-! ### Encode, then decode -/

/-- Decoding an encoded instruction with legal operands gives it back, and leaves the bytes after it. -/
theorem decode_encode_append {i : Instr} (hw : i.wf = true) (rest : List Byte) :
    decode (encode i ++ rest) = .ok (i, rest) := by
  have hlen : lengthOfByte i.opcode.code = (encode i).length := by
    rw [lengthOfByte_code, length_encode, Instr.length]
  have hfits : lengthOfByte i.opcode.code ≤ (i.opcode.layout.pack i.fields ++ rest).length + 1 := by
    rw [hlen, encode, List.length_cons, List.length_append]
    omega
  have hinstr : decodeAt (fun k => (encode i ++ rest).getD k 0) = i :=
    decodeAt_eq_of_encode hw fun k hk => List.getD_append _ _ _ k (by rwa [length_encode])
  calc decode (encode i ++ rest)
      = .ok (decodeAt fun k => (encode i ++ rest).getD k 0,
          (encode i ++ rest).drop (lengthOfByte i.opcode.code)) := (decode_cons _ _).trans (if_pos hfits)
    _ = .ok (i, rest) := by rw [hinstr, hlen, List.drop_left]

/-! ### Decode, then encode -/

/-- A byte is its first field with a second field of 0 exactly when its second field is 0. -/
theorem byteOfNibbles_firstNibble_zero_iff (o : Config.NibbleOrder) (b : Byte) :
    byteOfNibbles o (firstNibble o b) 0 = b ↔ secondNibble o b = 0 := by
  constructor
  · intro h
    rw [← h, secondNibble_byteOfNibbles]
  · intro h
    rw [← h, byteOfNibbles_nibbles]

/-- The first-named field of a byte stands in bits 7:4 (R71), so the pad that `padIsZero` reads in bits 3:0 is the
layout's pad. -/
theorem padIsZero_iff (l : Layout) (b : Nat → Byte) : padIsZero l b ↔ l.pad b = 0 := by
  cases l with
  | regA | regARegBRegC | regAImmA8 | regAImmA16 | regARegBImmA4 => exact Iff.rfl
  | none | regARegB | immA8 | immA16 | regARegBImmA16 | immA16ImmB16 => exact ⟨fun _ => rfl, fun _ => trivial⟩

/-- Packing the fields read from some bytes gives those bytes exactly when the pad, which is not read, is 0. -/
theorem pack_unpack_iff (l : Layout) (b : Nat → Byte) :
    l.pack (l.unpack b) = (List.range (l.pack (l.unpack b)).length).map (fun k => b (k + 1)) ↔ l.pad b = 0 := by
  cases l with
  | none | regARegB | immA8 | immA16 | regARegBImmA16 | immA16ImmB16 =>
    simp [Layout.pack, Layout.unpack, Layout.pad, List.range_succ]
  | regA | regARegBRegC | regAImmA8 | regAImmA16 =>
    simp [Layout.pack, Layout.unpack, Layout.pad, List.range_succ, regPadByte_regHigh_iff]
  | regARegBImmA4 =>
    simpa [Layout.pack, Layout.unpack, Layout.pad, List.range_succ] using
      byteOfNibbles_firstNibble_zero_iff params.nibbleOrder (b 1)

/-- The encoding of a variant with the fields read from some bytes. -/
theorem encode_build_unpack (v : Opcode) (b : Nat → Byte) :
    encode (v.build (v.layout.unpack b)) = v.code :: v.layout.pack (v.layout.unpack b) := by
  rw [encode, opcode_build, fields_build (fits_unpack v.layout b)]

/-- Encoding what was decoded from some bytes gives those bytes exactly when the opcode byte has a row and the
pad is 0. -/
theorem encode_decodeAt_iff (b : Nat → Byte) :
    encode (decodeAt b) = (List.range (decodeAt b).length).map b ↔
      (b 0).toNat < 0x46 ∧ padIsZero (decodeAt b).opcode.layout b := by
  cases hv : opcodeOfByte (b 0) with
  | none =>
    have hrow : 0x46 ≤ (b 0).toNat := (opcodeOfByte_eq_none_iff _).mp hv
    have hne : (0x00 : Byte) ≠ b 0 := by
      intro h
      rw [← h] at hrow
      exact absurd hrow (by decide)
    rw [decodeAt_unknown hrow]
    exact iff_of_false (fun h => hne (List.cons.inj h).1) (fun h => absurd h.1 (by omega))
  | some v =>
    have hrow : (b 0).toNat < 0x46 := by
      by_contra h
      rw [(opcodeOfByte_eq_none_iff _).mpr (by omega)] at hv
      cases hv
    have hdec : decodeAt b = v.build (v.layout.unpack b) := by rw [decodeAt, hv]
    rw [hdec, encode_build_unpack, length_build, opcode_build, ← length_pack v.layout (v.layout.unpack b),
      List.range_succ_eq_map, List.map_cons, List.map_map, code_of_opcodeOfByte hv, List.cons_inj_right,
      padIsZero_iff, ← pack_unpack_iff, and_iff_right hrow]
    rfl

/-- What a successful `decode` means: the instruction at the front of the bytes, which are long enough to hold it,
and the bytes after it. -/
theorem decode_eq_ok {bytes rest : List Byte} {i : Instr} (h : decode bytes = .ok (i, rest)) :
    decodeAt (fun k => bytes.getD k 0) = i ∧ i.length ≤ bytes.length ∧ rest = bytes.drop i.length := by
  cases bytes with
  | nil => cases h
  | cons op tail =>
    rw [decode_cons] at h
    split at h
    next hle =>
      obtain ⟨hi, hrest⟩ := Prod.mk.inj (Except.ok.inj h)
      have hlen : i.length = lengthOfByte op := by rw [← hi, length_decodeAt, List.getD_cons_zero]
      exact ⟨hi, hlen ▸ hle, hlen ▸ hrest.symm⟩
    next => cases h

/-- The first `n` bytes of a list, read one by one. -/
theorem map_getD_range_eq_take {n : Nat} {bytes : List Byte} (h : n ≤ bytes.length) :
    (List.range n).map (fun k => bytes.getD k 0) = bytes.take n := by
  apply List.ext_getElem
  · simp [h]
  · intro k hk _
    have hlt : k < bytes.length := by
      rw [List.length_map, List.length_range] at hk
      omega
    simp [hlt]

/-- Bytes are an encoding and the bytes after it exactly when the encoding is their front. -/
theorem encode_append_drop_iff (i : Instr) (bytes : List Byte) :
    encode i ++ bytes.drop i.length = bytes ↔ encode i = bytes.take i.length := by
  conv_lhs => rhs; rw [← List.take_append_drop i.length bytes]
  exact List.append_left_inj _

/-- Settles O3, from the two round trips `decode_encode_append` and `encode_decodeAt_iff`. -/
theorem encodeAndDecodeAreInverse : Obligations.EncodeAndDecodeAreInverse := by
  refine ⟨fun i rest hw => decode_encode_append hw rest, length_encode, fun bytes rest i h => ?_⟩
  obtain ⟨rfl, hle, rfl⟩ := decode_eq_ok h
  rw [encode_append_drop_iff, ← map_getD_range_eq_take hle]
  exact encode_decodeAt_iff _

end Sys2Proof

/-! SET (40_data_movement.md R131, R132). The bytes come from the layout of the variant, with the first-named
register in bits 7:4 (30_encoding.md R71), and the meaning is one register write. -/

namespace Sys2Proof

open Machine

/-! ### Bytes of two layouts -/

/-- REGA_REGB: the opcode byte, then both registers in one byte (R75). -/
theorem encode_of_regARegB {i : Instr} (h : i.opcode.layout = .regARegB) :
    encode i = [i.opcode.code, regNum i.fields.a ++ regNum i.fields.b] := by
  rw [encode, h]
  rfl

/-- REGA_IMMA16: the opcode byte, the immediate with its low byte first, then the register and a pad of 0 (R80). -/
theorem encode_of_regAImmA16 {i : Instr} (h : i.opcode.layout = .regAImmA16) :
    encode i = [i.opcode.code, lowByte i.fields.immA, highByte i.fields.immA,
      regNum i.fields.a ++ (0 : Nibble)] := by
  rw [encode, h]
  rfl

theorem encode_setRR (d src : Reg) : encode (.setRR d src) = [0x01, regNum d ++ regNum src] :=
  encode_of_regARegB rfl

theorem encode_setRI (d : Reg) (v : Word) :
    encode (.setRI d v) = [0x02, lowByte v, highByte v, regNum d ++ (0 : Nibble)] :=
  encode_of_regAImmA16 rfl

/-! ### Meaning -/

theorem exec_setRR (d src : Reg) (s : State) :
    exec (.setRR d src) s = .next (s.writeReg d (s.readReg src)) := rfl

theorem exec_setRI (d : Reg) (v : Word) (s : State) : exec (.setRI d v) s = .next (s.writeReg d v) := rfl

/-- An instruction whose meaning is one register write completes and changes that register only. -/
theorem completes_writesRegOnly {i : Instr} {d : Reg} {v : Word} {s : State}
    (h : exec i s = .next (s.writeReg d v)) : ∃ t, exec i s = .next t ∧ WritesRegOnly d v s t :=
  ⟨s.writeReg d v, h, writeReg_writesRegOnly s d v⟩

/-- Settles O19: the bytes from the two layouts, the effect from the one register write of each form. -/
theorem setWritesItsDestination : Obligations.SetWritesItsDestination := by
  intro d src v
  exact ⟨encode_setRR d src, fun s => completes_writesRegOnly (exec_setRR d src s),
    encode_setRI d v, fun s => completes_writesRegOnly (exec_setRI d v s)⟩

end Sys2Proof

/-! ADD, SUB, MUL, DIVU and REMU (42_arithmetic.md R160 to R171). Each is one register write of a 16-bit function
of its two sources; the laws of `Laws/Alu` say that the functions, which compute in the integers, are the word
operations. -/

namespace Sys2Proof

open Machine

/-! ### Bytes of the two layouts with three operands -/

/-- REGA_REGB_REGC: the opcode byte, the third register and a pad of 0, then the first two registers (R76). -/
theorem encode_of_regARegBRegC {i : Instr} (h : i.opcode.layout = .regARegBRegC) :
    encode i = [i.opcode.code, regNum i.fields.c ++ (0 : Nibble), regNum i.fields.a ++ regNum i.fields.b] := by
  rw [encode, h]
  rfl

/-- REGA_REGB_IMMA16: the opcode byte, the immediate with its low byte first, then both registers (R82). -/
theorem encode_of_regARegBImmA16 {i : Instr} (h : i.opcode.layout = .regARegBImmA16) :
    encode i = [i.opcode.code, lowByte i.fields.immA, highByte i.fields.immA,
      regNum i.fields.a ++ regNum i.fields.b] := by
  rw [encode, h]
  rfl

/-! ### Meaning -/

section
variable (d s1 s2 : Reg) (v : Word) (s : State)

theorem exec_addRRR :
    exec (.addRRR d s1 s2) s = .next (s.writeReg d (s.readReg s1 + s.readReg s2)) := by
  rw [← aluAdd_eq]
  rfl

theorem exec_addRRI : exec (.addRRI d s1 v) s = .next (s.writeReg d (s.readReg s1 + v)) := by
  rw [← aluAdd_eq]
  rfl

theorem exec_subRRR :
    exec (.subRRR d s1 s2) s = .next (s.writeReg d (s.readReg s1 - s.readReg s2)) := by
  rw [← aluSub_eq]
  rfl

theorem exec_subRRI : exec (.subRRI d s1 v) s = .next (s.writeReg d (s.readReg s1 - v)) := by
  rw [← aluSub_eq]
  rfl

/-- The mirror form: the immediate is on the left. -/
theorem exec_subRIR : exec (.subRIR d v s2) s = .next (s.writeReg d (v - s.readReg s2)) := by
  rw [← aluSub_eq]
  rfl

theorem exec_mulRRR :
    exec (.mulRRR d s1 s2) s = .next (s.writeReg d (s.readReg s1 * s.readReg s2)) := by
  rw [← aluMul_eq]
  rfl

theorem exec_mulRRI : exec (.mulRRI d s1 v) s = .next (s.writeReg d (s.readReg s1 * v)) := by
  rw [← aluMul_eq]
  rfl

theorem exec_divuRRR :
    exec (.divuRRR d s1 s2) s = .next (s.writeReg d
      (if s.readReg s2 = 0 then if s.readReg s1 = 0 then 0x0000 else 0xFFFF
      else BitVec.ofNat 16 ((s.readReg s1).toNat / (s.readReg s2).toNat))) := by
  rw [← aluDivu_eq]
  rfl

theorem exec_remuRRR :
    exec (.remuRRR d s1 s2) s = .next (s.writeReg d
      (if s.readReg s2 = 0 then s.readReg s1
      else BitVec.ofNat 16 ((s.readReg s1).toNat % (s.readReg s2).toNat))) := by
  rw [← aluRemu_eq]
  rfl

end

/-! ### The obligations: the bytes from the layout, the effect from the one register write -/

/-- Settles O29, both forms. -/
theorem addWritesTheSum : Obligations.AddWritesTheSum := by
  intro d s1 s2 v
  exact ⟨encode_of_regARegBRegC rfl, fun s => completes_writesRegOnly (exec_addRRR d s1 s2 s),
    encode_of_regARegBImmA16 rfl, fun s => completes_writesRegOnly (exec_addRRI d s1 v s)⟩

/-- Settles O30, all three forms; the mirror form has the layout of SUB_rri. -/
theorem subWritesTheDifference : Obligations.SubWritesTheDifference := by
  intro d s1 s2 v
  exact ⟨encode_of_regARegBRegC rfl, fun s => completes_writesRegOnly (exec_subRRR d s1 s2 s),
    encode_of_regARegBImmA16 rfl, fun s => completes_writesRegOnly (exec_subRRI d s1 v s),
    encode_of_regARegBImmA16 rfl, fun s => completes_writesRegOnly (exec_subRIR d s2 v s)⟩

/-- Settles O31, both forms. -/
theorem mulWritesTheLowProduct : Obligations.MulWritesTheLowProduct := by
  intro d s1 s2 v
  exact ⟨encode_of_regARegBRegC rfl, fun s => completes_writesRegOnly (exec_mulRRR d s1 s2 s),
    encode_of_regARegBImmA16 rfl, fun s => completes_writesRegOnly (exec_mulRRI d s1 v s)⟩

/-- Settles O34: the sentinels and the quotient are those of `aluDivu_eq`. -/
theorem unsignedDivisionWritesTheQuotient : Obligations.UnsignedDivisionWritesTheQuotient := by
  intro d s1 s2
  exact ⟨encode_of_regARegBRegC rfl, fun s => completes_writesRegOnly (exec_divuRRR d s1 s2 s)⟩

/-- Settles O36: the dividend and the modulus are those of `aluRemu_eq`. -/
theorem unsignedRemainderWritesTheModulus : Obligations.UnsignedRemainderWritesTheModulus := by
  intro d s1 s2
  exact ⟨encode_of_regARegBRegC rfl, fun s => completes_writesRegOnly (exec_remuRRR d s1 s2 s)⟩

end Sys2Proof

/-! AND, IOR, XOR and the shifts by an immediate (43_logic_shift.md R181 to R187, R189, R192, R195). Each is one
register write. The shifts compute in the integers; for the amounts below 16, the only ones that a 4-bit field
holds, the laws of `Laws/Alu` say that they are the word shifts, whatever `SHIFT_MODE`. -/

namespace Sys2Proof

open Machine

/-! ### Bytes of the layout with a 4-bit immediate -/

/-- REGA_REGB_IMMA4: the opcode byte, the low 4 bits of the immediate and a pad of 0, then both registers (R81). -/
theorem encode_of_regARegBImmA4 {i : Instr} (h : i.opcode.layout = .regARegBImmA4) :
    encode i = [i.opcode.code, BitVec.ofNat 4 i.fields.immA.toNat ++ (0 : Nibble),
      regNum i.fields.a ++ regNum i.fields.b] := by
  rw [encode, h, BitVec.ofNat_toNat]
  rfl

/-! ### Meaning -/

section
variable (d s1 s2 : Reg) (v : Word) (s : State)

theorem exec_andRRR :
    exec (.andRRR d s1 s2) s = .next (s.writeReg d (s.readReg s1 &&& s.readReg s2)) := rfl

theorem exec_andRRI : exec (.andRRI d s1 v) s = .next (s.writeReg d (s.readReg s1 &&& v)) := rfl

theorem exec_iorRRR :
    exec (.iorRRR d s1 s2) s = .next (s.writeReg d (s.readReg s1 ||| s.readReg s2)) := rfl

theorem exec_iorRRI : exec (.iorRRI d s1 v) s = .next (s.writeReg d (s.readReg s1 ||| v)) := rfl

theorem exec_xorRRR :
    exec (.xorRRR d s1 s2) s = .next (s.writeReg d (s.readReg s1 ^^^ s.readReg s2)) := rfl

theorem exec_xorRRI : exec (.xorRRI d s1 v) s = .next (s.writeReg d (s.readReg s1 ^^^ v)) := rfl

end

section
variable (d src : Reg) {n : Word} (hn : n.toNat < 16) (s : State)
include hn

/-- Zeros enter at bit 0. -/
theorem exec_lshRRI :
    exec (.lshRRI d src n) s = .next (s.writeReg d (s.readReg src <<< n.toNat)) := by
  rw [← shiftLeft_eq, ← aluLsh_lt params.shiftMode _ hn]
  rfl

/-- Copies of bit 15 enter at bit 15. -/
theorem exec_rshsRRI :
    exec (.rshsRRI d src n) s = .next (s.writeReg d ((s.readReg src).sshiftRight n.toNat)) := by
  rw [← shiftRightSigned_eq, ← aluRshs_lt params.shiftMode _ hn]
  rfl

/-- Zeros enter at bit 15. -/
theorem exec_rshuRRI :
    exec (.rshuRRI d src n) s = .next (s.writeReg d (s.readReg src >>> n.toNat)) := by
  rw [← shiftRightUnsigned_eq, ← aluRshu_lt params.shiftMode _ hn]
  rfl

end

/-- An instruction whose meaning is one register write completes, changes that register only, and what it writes
there has the bits of the word written. -/
theorem completes_writesBits {i : Instr} {d : Reg} {w : Word} {s : State} {bit : Nat → Bool}
    (h : exec i s = .next (s.writeReg d w)) (hw : ∀ k, w.getLsbD k = bit k) :
    ∃ t x, exec i s = .next t ∧ WritesRegOnly d x s t ∧ ∀ k, x.getLsbD k = bit k :=
  ⟨s.writeReg d w, w, h, writeReg_writesRegOnly s d w, hw⟩

/-! ### The obligations: the bytes from the layout, the effect from the one register write -/

/-- Settles O39, all three shifts. -/
theorem shiftsByAnImmediate : Obligations.ShiftsByAnImmediate := by
  intro d src n hn
  exact ⟨encode_of_regARegBImmA4 rfl, fun s => completes_writesRegOnly (exec_lshRRI d src hn s),
    encode_of_regARegBImmA4 rfl, fun s => completes_writesRegOnly (exec_rshsRRI d src hn s),
    encode_of_regARegBImmA4 rfl, fun s => completes_writesRegOnly (exec_rshuRRI d src hn s)⟩

/-- Settles O38: bit `k` of each word operation is the operation on the operands' bits `k`. -/
theorem bitwiseOperationsWorkBitByBit : Obligations.BitwiseOperationsWorkBitByBit := by
  intro d s1 s2 v
  refine ⟨encode_of_regARegBRegC rfl, encode_of_regARegBImmA16 rfl, encode_of_regARegBRegC rfl,
    encode_of_regARegBImmA16 rfl, encode_of_regARegBRegC rfl, encode_of_regARegBImmA16 rfl, fun s => ?_⟩
  exact ⟨completes_writesBits (exec_andRRR d s1 s2 s) fun _ => BitVec.getLsbD_and,
    completes_writesBits (exec_andRRI d s1 v s) fun _ => BitVec.getLsbD_and,
    completes_writesBits (exec_iorRRR d s1 s2 s) fun _ => BitVec.getLsbD_or,
    completes_writesBits (exec_iorRRI d s1 v s) fun _ => BitVec.getLsbD_or,
    completes_writesBits (exec_xorRRR d s1 s2 s) fun _ => BitVec.getLsbD_xor,
    completes_writesBits (exec_xorRRI d s1 v s) fun _ => BitVec.getLsbD_xor⟩

end Sys2Proof


/-! CEQ, CNE, CLTS, CGES, CLTU and CGEU (44_compare.md R200 to R218). Each relation comes in the three operand
frames, and each frame is one register write of the relation's value. What a frame does is said once, for any
function; the laws of `Laws/Alu` say which word each relation gives. -/

namespace Sys2Proof

open Machine

/-! ### An instruction whose meaning is an operand frame -/

section
variable {i : Instr} {f : Word → Word → Word} {d s1 s2 : Reg} {v w : Word} {s : State}

/-- Both sources are registers (`_rrr`). -/
theorem completes_opRRR (h : exec i s = .next (s.opRRR f d s1 s2))
    (hf : f (s.readReg s1) (s.readReg s2) = w) : ∃ t, exec i s = .next t ∧ WritesRegOnly d w s t := by
  subst hf
  exact completes_writesRegOnly h

/-- The right source is an immediate (`_rri`). -/
theorem completes_opRRI (h : exec i s = .next (s.opRRI f d s1 v))
    (hf : f (s.readReg s1) v = w) : ∃ t, exec i s = .next t ∧ WritesRegOnly d w s t := by
  subst hf
  exact completes_writesRegOnly h

/-- The left source is an immediate (`_rir`). -/
theorem completes_opRIR (h : exec i s = .next (s.opRIR f d v s2))
    (hf : f v (s.readReg s2) = w) : ∃ t, exec i s = .next t ∧ WritesRegOnly d w s t := by
  subst hf
  exact completes_writesRegOnly h

end

/-! ### The obligations: the bytes from the layout, the effect from the frame and the relation

In each effect `rfl` runs the instruction to its frame, and the law of the relation gives the word written. -/

/-- Settles O42: CNE's value is CEQ's with 0 and 1 exchanged. -/
theorem equalityComparisons : Obligations.EqualityComparisons := by
  intro d s1 s2 v
  refine ⟨encode_of_regARegBRegC rfl, encode_of_regARegBImmA16 rfl, encode_of_regARegBImmA16 rfl,
    encode_of_regARegBRegC rfl, encode_of_regARegBImmA16 rfl, encode_of_regARegBImmA16 rfl, fun s => ?_⟩
  exact ⟨completes_opRRR rfl (compareEq_eq _ _), completes_opRRI rfl (compareEq_eq _ _),
    completes_opRIR rfl (compareEq_eq _ _), completes_opRRR rfl (compareNe_eq _ _),
    completes_opRRI rfl (compareNe_eq _ _), completes_opRIR rfl (compareNe_eq _ _)⟩

/-- Settles O43: `compareLts_eq` and `compareGes_eq` compare the values of the words as two's-complement numbers,
with no difference formed that could wrap. -/
theorem signedComparisons : Obligations.SignedComparisons := by
  intro d s1 s2 v
  refine ⟨encode_of_regARegBRegC rfl, encode_of_regARegBImmA16 rfl, encode_of_regARegBImmA16 rfl,
    encode_of_regARegBRegC rfl, encode_of_regARegBImmA16 rfl, encode_of_regARegBImmA16 rfl, fun s => ?_⟩
  exact ⟨completes_opRRR rfl (compareLts_eq _ _), completes_opRRI rfl (compareLts_eq _ _),
    completes_opRIR rfl (compareLts_eq _ _), completes_opRRR rfl (compareGes_eq _ _),
    completes_opRRI rfl (compareGes_eq _ _), completes_opRIR rfl (compareGes_eq _ _)⟩

/-- Settles O44: `compareLtu_eq` and `compareGeu_eq` compare the values 0..65,535. -/
theorem unsignedComparisons : Obligations.UnsignedComparisons := by
  intro d s1 s2 v
  refine ⟨encode_of_regARegBRegC rfl, encode_of_regARegBImmA16 rfl, encode_of_regARegBImmA16 rfl,
    encode_of_regARegBRegC rfl, encode_of_regARegBImmA16 rfl, encode_of_regARegBImmA16 rfl, fun s => ?_⟩
  exact ⟨completes_opRRR rfl (compareLtu_eq _ _), completes_opRRI rfl (compareLtu_eq _ _),
    completes_opRIR rfl (compareLtu_eq _ _), completes_opRRR rfl (compareGeu_eq _ _),
    completes_opRRI rfl (compareGeu_eq _ _), completes_opRIR rfl (compareGeu_eq _ _)⟩

end Sys2Proof

/-! What an instruction may change (10_state.md R16 to R18, 20_memory.md R48). One lemma over the shared operations
says it for all 70 instructions: each completes, its memory is the old one with `storedCells` stored in it, and
every register outside `writtenRegs` is as before. The frames, the canonical form of memory, the runs that never
stop and the store over the running instruction are read off it. -/

namespace Sys2Proof

open Machine

/-! ### Storing a list of cells -/

/-- The bytes of a list of cells stored one after the other. -/
def storeCells : List (Word × Byte) → State → State
  | [], s => s
  | c :: cs, s => storeCells cs (s.writeByte c.1 c.2)

theorem storeCells_byteCell (a v : Word) (s : State) : storeCells (byteCell a v) s = s.memWrite1 a v := rfl

theorem storeCells_wordCells (a v : Word) (s : State) : storeCells (wordCells a v) s = s.memWrite2 a v := rfl

theorem readByte_storeCells_of_not_mem {a : Word} : ∀ (cells : List (Word × Byte)) (s : State),
    a ∉ cells.map Prod.fst → (storeCells cells s).readByte a = s.readByte a := by
  intro cells
  induction cells with
  | nil => exact fun s _ => rfl
  | cons c cs ih =>
    intro s ha
    obtain ⟨hc, hcs⟩ := List.ne_and_not_mem_of_not_mem_cons ha
    rw [storeCells, ih _ hcs, readByte_writeByte_ne s hc]

theorem wf_storeCells : ∀ (cells : List (Word × Byte)) {s : State}, s.mem.wf → (storeCells cells s).mem.wf := by
  intro cells
  induction cells with
  | nil => exact fun h => h
  | cons c cs ih => exact fun h => ih (wf_writeByte h c.1 c.2)

/-- Two states with the same memory read alike. -/
theorem readByte_of_mem_eq {s t : State} (h : s.mem = t.mem) (a : Word) : s.readByte a = t.readByte a :=
  congrArg (·.byteAt a.toNat) h

/-! ### The change of state that an instruction is confined to -/

/-- From `s` to `t` memory changes by the bytes that `i` stores, and no register changes that `i` does not write. -/
structure Confined (i : Instr) (s t : State) : Prop where
  mem_eq : t.mem = (storeCells (storedCells i s) s).mem
  readReg_eq : ∀ r, r ∉ writtenRegs i → t.readReg r = s.readReg r

section
variable {i : Instr} {s t : State} {d : Reg} {a v : Word}

/-- An operation that stores nothing is confined by its registers alone. -/
theorem confined_of_mem_eq (hc : storedCells i s = []) (hm : t.mem = s.mem)
    (hr : ∀ r, r ∉ writtenRegs i → t.readReg r = s.readReg r) : Confined i s t :=
  ⟨by rw [hc]; exact hm, hr⟩

theorem confined_refl (hc : storedCells i s = []) : Confined i s s :=
  confined_of_mem_eq hc rfl fun _ _ => rfl

/-- A register outside the list is not the one of the list that is written. -/
theorem readReg_writeReg_of_not_mem {rs : List Reg} {r : Reg} (hd : d ∈ rs) (hr : r ∉ rs) :
    (s.writeReg d v).readReg r = s.readReg r :=
  readReg_writeReg_ne s (ne_of_mem_of_not_mem hd hr).symm v

theorem confined_writeReg (hc : storedCells i s = []) (hd : d ∈ writtenRegs i) :
    Confined i s (s.writeReg d v) :=
  confined_of_mem_eq hc rfl fun _ hr => readReg_writeReg_of_not_mem hd hr

theorem confined_memWrite1 (hc : storedCells i s = byteCell a v) : Confined i s (s.memWrite1 a v) :=
  ⟨by rw [hc, storeCells_byteCell], fun _ _ => rfl⟩

theorem confined_memWrite2 (hc : storedCells i s = wordCells a v) : Confined i s (s.memWrite2 a v) :=
  ⟨by rw [hc, storeCells_wordCells], fun _ _ => rfl⟩

theorem confined_push1 (hc : storedCells i s = byteCell (addrAdd (s.readReg .sp) (-1)) v)
    (hsp : .sp ∈ writtenRegs i) : Confined i s (s.push1 v) :=
  ⟨by rw [hc]; rfl, fun _ hr => readReg_writeReg_of_not_mem hsp hr⟩

theorem confined_push2 (hc : storedCells i s = wordCells (addrAdd (s.readReg .sp) (-2)) v)
    (hsp : .sp ∈ writtenRegs i) : Confined i s (s.push2 v) :=
  ⟨by rw [hc]; rfl, fun _ hr => readReg_writeReg_of_not_mem hsp hr⟩

/-- Two register writes, as of a pop and of a jump with link. -/
theorem confined_writeReg_writeReg {e : Reg} {w : Word} (hc : storedCells i s = []) (hd : d ∈ writtenRegs i)
    (he : e ∈ writtenRegs i) : Confined i s ((s.writeReg d v).writeReg e w) :=
  confined_of_mem_eq hc rfl fun _ hr =>
    (readReg_writeReg_of_not_mem he hr).trans (readReg_writeReg_of_not_mem hd hr)

/-- JMZ as the model has it: no link (D14). -/
theorem confined_jumpIfZero (hc : storedCells i s = []) (hip : .ip ∈ writtenRegs i) :
    Confined i s (s.jumpIfZero false a v) :=
  confined_of_mem_eq hc (mem_jumpIfZero s false a v) fun r hr => by
    rw [readReg_jumpIfZero, if_neg fun h => ne_of_mem_of_not_mem hip hr h.1.symm]

end

/-- Every instruction completes in every state, and changes no more than it is confined to. -/
theorem exec_confined (i : Instr) (s : State) : ∃ t, exec i s = .next t ∧ Confined i s t := by
  have hhead : ∀ {d : Reg} {ds : List Reg}, d ∈ d :: ds := List.mem_cons_self
  cases i with
  | nop | slp => exact ⟨_, rfl, confined_refl rfl⟩
  | setRR | setRI | ldbRR | ldbRI | ldwRR | ldwRI
  | addRRR | addRRI | subRRR | subRRI | subRIR | mulRRR | mulRRI | divsRRR | divuRRR | remsRRR | remuRRR
  | andRRR | andRRI | iorRRR | iorRRI | xorRRR | xorRRI
  | lshRRR | lshRRI | lshRIR | rshsRRR | rshsRRI | rshsRIR | rshuRRR | rshuRRI | rshuRIR
  | ceqRRR | ceqRRI | ceqRIR | cneRRR | cneRRI | cneRIR | cltsRRR | cltsRRI | cltsRIR
  | cltuRRR | cltuRRI | cltuRIR | cgesRRR | cgesRRI | cgesRIR | cgeuRRR | cgeuRRI | cgeuRIR =>
    exact ⟨_, rfl, confined_writeReg rfl hhead⟩
  | stbRR | stbRI | stbIR | stbII => exact ⟨_, rfl, confined_memWrite1 rfl⟩
  | stwRR | stwRI | stwIR | stwII => exact ⟨_, rfl, confined_memWrite2 rfl⟩
  | pshbR | pshbI => exact ⟨_, rfl, confined_push1 rfl hhead⟩
  | pshwR | pshwI => exact ⟨_, rfl, confined_push2 rfl hhead⟩
  | popbR | popwR | jmpR | jmpI =>
    exact ⟨_, rfl, confined_writeReg_writeReg rfl hhead (List.mem_cons_of_mem _ hhead)⟩
  | jmzRR | jmzRI => exact ⟨_, rfl, confined_jumpIfZero rfl hhead⟩

theorem exec_completes (i : Instr) (s : State) : ∃ t, exec i s = .next t :=
  (exec_confined i s).imp fun _ h => h.1

theorem confined_of_exec {i : Instr} {s t : State} (h : exec i s = .next t) : Confined i s t := by
  obtain ⟨t', hexec, hconf⟩ := exec_confined i s
  obtain rfl : t' = t := Host.Outcome.next.inj (hexec.symm.trans h)
  exact hconf

/-! ### The step -/

theorem step_completes (s : State) : ∃ t, step s = .next t := by
  rw [step_eq]
  exact exec_completes _ _

/-- A step is confined to what its instruction may change on the state whose IP is past it. -/
theorem confined_of_step {s t : State} (h : step s = .next t) :
    Confined s.fetch (s.advanceIp s.fetch.length) t :=
  confined_of_exec (step_eq s ▸ h)

theorem step_keeps_memoryCanonical {s t : State} (hs : MemoryCanonical s) (h : step s = .next t) :
    MemoryCanonical t := by
  rw [MemoryCanonical, (confined_of_step h).mem_eq]
  exact wf_storeCells _ hs

/-! ### The obligations on every instruction and every run -/

/-- Settles O9: a step stores bytes at addresses below 65,536, as the driver's writes do, and a tick is such writes
and then a step. -/
theorem stepKeepsMemoryCanonical : Obligations.StepKeepsMemoryCanonical := by
  intro s hs
  have hpokes : ∀ ps, MemoryCanonical (Driver.pokeAll ps s) := fun ps => wf_pokeAll ps hs
  exact ⟨fun t => step_keeps_memoryCanonical hs,
    fun ps => ⟨hpokes ps, fun t => step_keeps_memoryCanonical (hpokes ps)⟩⟩

/-- Settles O7. -/
theorem everyInstructionButSlpCompletes : Obligations.EveryInstructionButSlpCompletes :=
  ⟨(fun f => nomatch f), fun i s _ => exec_completes i s⟩

theorem neverStops (s : State) : NeverStops s := by
  intro n
  induction n generalizing s with
  | zero => exact ⟨s, rfl⟩
  | succ n ih =>
    obtain ⟨t, hstep⟩ := step_completes s
    obtain ⟨u, hrun⟩ := ih t
    exact ⟨u, (run_succ_of_step core n hstep).trans hrun⟩

theorem driverRun_completes (ticks : List (List Driver.Poke)) : ∀ s : State, ∃ t, Driver.run ticks s = .next t := by
  induction ticks with
  | nil => exact fun s => ⟨s, rfl⟩
  | cons ps rest ih =>
    intro s
    obtain ⟨t, htick⟩ : ∃ t, Driver.tick ps s = .next t := step_completes _
    obtain ⟨u, hrun⟩ := ih t
    exact ⟨u, by rw [Driver.run, htick]; exact hrun⟩

/-- Settles O8, by induction on the number of steps and on the ticks. -/
theorem noRunEverStops : Obligations.NoRunEverStops := ⟨neverStops, driverRun_completes⟩

/-- Settles O11. -/
theorem registersNotWrittenAreUnchanged : Obligations.RegistersNotWrittenAreUnchanged :=
  fun _ _ _ r h hr => (confined_of_exec h).readReg_eq r hr

/-- Settles O12. -/
theorem bytesNotStoredAreUnchanged : Obligations.BytesNotStoredAreUnchanged := by
  intro i s t a h ha
  rw [readByte_of_mem_eq (confined_of_exec h).mem_eq, readByte_storeCells_of_not_mem _ _ ha]

/-- Settles O14: the step moves IP past the instruction, and the meaning then leaves it alone. -/
theorem ipIsPastTheInstructionUnlessWritten : Obligations.IpIsPastTheInstructionUnlessWritten := by
  intro s t h hip
  rw [(confined_of_step h).readReg_eq .ip hip, readReg_advanceIp, if_pos rfl, addrAdd_natCast]

/-! ### The step on decoded bytes -/

/-- The five bytes at IP decode to the instruction that the step fetches. -/
theorem fetch_of_decode {s : State} {i : Instr} {rest : List Byte}
    (h : decode [s.fetchByte 0, s.fetchByte 1, s.fetchByte 2, s.fetchByte 3, s.fetchByte 4] = .ok (i, rest)) :
    s.fetch = i := by
  obtain ⟨hi, -, -⟩ := decode_eq_ok h
  rw [← hi, State.fetch]
  refine decodeAt_congr fun k hk => ?_
  have hk5 : k < 5 := lt_of_lt_of_le hk (lengthOfByte_le_five _)
  interval_cases k <;> rfl

theorem step_of_fetch {s : State} {i : Instr} (h : s.fetch = i) :
    step s = exec i (s.writeReg .ip (addrAdd (s.readReg .ip) i.length)) := by
  subst h
  exact step_eq s

/-- Settles O1. -/
theorem stepRunsDecodedInstruction : Obligations.StepRunsDecodedInstruction := by
  intro s i rest h
  have hi := fetch_of_decode h
  exact ⟨hi ▸ wf_decodeAt s.fetchByte, step_of_fetch hi⟩

/-- An instruction stores nothing, or it leaves IP alone and stores a byte or a word. -/
theorem storedCells_cases (i : Instr) (s : State) :
    storedCells i s = [] ∨ .ip ∉ writtenRegs i ∧
      ∃ a v, storedCells i s = byteCell a v ∨ storedCells i s = wordCells a v := by
  cases i with
  | stbRR | stbRI | stbIR | stbII | pshbR | pshbI => exact .inr ⟨by simp [writtenRegs], _, _, .inl rfl⟩
  | stwRR | stwRI | stwIR | stwII | pshwR | pshwI => exact .inr ⟨by simp [writtenRegs], _, _, .inr rfl⟩
  | _ => exact .inl rfl

/-- Each byte an instruction stores is read back after all of them are stored: no two go to one address. -/
theorem readByte_storeCells_of_mem {i : Instr} {s : State} {a : Word} {b : Byte}
    (h : (a, b) ∈ storedCells i s) : (storeCells (storedCells i s) s).readByte a = b := by
  rcases storedCells_cases i s with hc | ⟨-, c, v, hc | hc⟩ <;> rw [hc] at h ⊢
  · cases h
  · exact readByte_memWrite1_of_mem s h
  · exact readByte_memWrite2_of_mem s h

/-- Settles O18: the step runs the fetched instruction, and a fetch after it reads memory as the stores left it. -/
theorem storeOverRunningInstruction : Obligations.StoreOverRunningInstruction := by
  intro s i rest h past hstores
  obtain ⟨t, hexec, hconf⟩ := exec_confined i past
  have hip : .ip ∉ writtenRegs i := by
    rcases storedCells_cases i past with hc | ⟨hip, -⟩
    · exact absurd (congrArg (List.map Prod.fst) hc) hstores
    · exact hip
  have hfetch : ∀ k : Nat, (t.writeReg .ip (s.readReg .ip)).fetchByte k =
      (storeCells (storedCells i past) past).readByte (addrAdd (s.readReg .ip) k) :=
    fun k => readByte_of_mem_eq hconf.mem_eq _
  refine ⟨t, (step_of_fetch (fetch_of_decode h)).trans hexec, hexec, hconf.readReg_eq .ip hip,
    fun k _ => ⟨fun b hb => ?_, fun hk => ?_⟩⟩
  · rw [hfetch, readByte_storeCells_of_mem hb]
  · rw [hfetch, readByte_storeCells_of_not_mem _ _ hk]
    rfl

end Sys2Proof

/-! The decoder on the bytes it is given, and fetch (30_encoding.md R70 to R92, 20_memory.md R46). -/

namespace Sys2Proof

open Machine

/-- Bytes that are the encoding of a well-formed instruction decode to it, with no byte left. -/
theorem decode_of_encode_eq {bytes : List Byte} {i : Instr} (hw : i.wf = true) (h : encode i = bytes) :
    decode bytes = .ok (i, []) := by
  rw [← h, ← decode_encode_append hw [], List.append_nil]

/-- Settles O2: each word is the encoding of its instruction. -/
theorem sampleWordsDecode : Obligations.SampleWordsDecode := by
  and_intros <;> exact decode_of_encode_eq rfl rfl

/-! ### Pads -/

/-- Two lists of bytes with one opcode byte decode alike when they are equally long, give the same fields, and have
the same bytes after the instruction. -/
theorem decode_congr {op : Byte} {v : Opcode} (hv : opcodeOfByte op = some v) {xs ys : List Byte}
    (hlen : xs.length = ys.length)
    (hfields : v.layout.unpack (fun k => (op :: xs).getD k 0) = v.layout.unpack (fun k => (op :: ys).getD k 0))
    (hrest : (op :: xs).drop v.layout.numBytes = (op :: ys).drop v.layout.numBytes) :
    decode (op :: xs) = decode (op :: ys) := by
  have hn : lengthOfByte op = v.layout.numBytes := by rw [lengthOfByte, hv]
  have hinstr : decodeAt (fun k => (op :: xs).getD k 0) = decodeAt (fun k => (op :: ys).getD k 0) := by
    simp only [decodeAt, List.getD_cons_zero, hv, hfields]
  rw [decode_cons, decode_cons, hn, hlen, hinstr, hrest]

/-- The register in bits 7:4 of a byte, whatever stands in the others. -/
theorem regHigh_append (n pad : Nibble) : regHigh (n ++ pad) = regOfNum n :=
  congrArg regOfNum (firstNibble_byteOfNibbles .firstHigh n pad)

/-- The first-named field of a byte, whatever the second one is (R71). -/
theorem firstNibble_append (n pad : Nibble) : firstNibble params.nibbleOrder (n ++ pad) = n :=
  firstNibble_byteOfNibbles .firstHigh n pad

/-- Settles O4: the fields are read from the other half of the byte that holds the pad. -/
theorem padNibblesAreIgnored : Obligations.PadNibblesAreIgnored := by
  intro op v hv n pad pad' x y rest
  refine ⟨fun hl => ?_, fun hl => ?_, fun hl => ?_, fun hl => ?_, fun hl => ?_⟩ <;>
    refine decode_congr hv rfl ?_ (by rw [hl]; rfl) <;>
    simp [hl, Layout.unpack, regHigh_append, firstNibble_append]

/-! ### Fetch -/

theorem fetchByte_eq (s : State) (k : Nat) :
    s.fetchByte k = s.readByte (s.readReg .ip + BitVec.ofNat 16 k) := by
  rw [State.fetchByte, addrAdd_natCast]

/-- Bytes at IP that are the encoding of a well-formed instruction are fetched as it. -/
theorem fetch_of_encode {s : State} {i : Instr} (hw : i.wf = true)
    (h : ∀ k, k < i.length → s.fetchByte k = (encode i).getD k 0) : s.fetch = i :=
  decodeAt_eq_of_encode hw h

/-- Settles O6: the decoder asks for the bytes below the length of the opcode byte, and for no others. -/
theorem fetchReadsOnlyTheInstruction : Obligations.FetchReadsOnlyTheInstruction := by
  intro s s' hip
  refine ⟨lengthOfByte_pos _, lengthOfByte_le_five _, fun hbytes => ⟨?_, ?_⟩⟩
  · refine (decodeAt_congr fun k hk => ?_).symm
    rw [fetchByte_zero] at hk
    rw [fetchByte_eq, fetchByte_eq, hip, hbytes k hk]
  · rw [State.fetch, length_decodeAt, fetchByte_zero]

/-! ### Steps that only move IP: an unknown opcode byte, NOP and SLP -/

theorem exec_nop (s : State) : exec .nop s = .next s := rfl

/-- The stub, the model's choice (log 1). -/
theorem exec_slp (s : State) : exec .slp s = .next s := rfl

theorem step_of_noop {s : State} {i : Instr} (hfetch : s.fetch = i) (hlen : i.length = 1)
    (hexec : ∀ t, exec i t = .next t) : step s = .next (s.writeReg .ip (s.readReg .ip + 1)) := by
  rw [step_of_fetch hfetch, hlen, hexec, addrAdd_natCast]
  rfl

/-- A one-byte instruction is fetched where its opcode byte stands at IP. -/
theorem fetch_of_opcodeByte {s : State} {i : Instr} (hw : i.wf = true) (hlen : i.length = 1)
    (h : s.readByte (s.readReg .ip) = i.opcode.code) : s.fetch = i := by
  refine fetch_of_encode hw fun k hk => ?_
  obtain rfl : k = 0 := by omega
  rw [fetchByte_zero, h, encode_head]

/-- Settles O5: a byte that has no row is one byte long and stands for NOP. -/
theorem unknownOpcodeIsOneByteNop : Obligations.UnknownOpcodeIsOneByteNop := by
  constructor
  · intro op rest hop
    have hn : lengthOfByte op = 1 := by rw [lengthOfByte, (opcodeOfByte_eq_none_iff op).mpr hop]
    rw [decode_cons, hn, decodeAt_unknown hop, if_pos (by omega)]
    rfl
  · intro s hop
    exact step_of_noop (decodeAt_unknown (by rwa [fetchByte_zero])) rfl exec_nop

/-- Settles O47. -/
theorem nopOnlyAdvancesIp : Obligations.NopOnlyAdvancesIp :=
  ⟨exec_nop, fun _ h => step_of_noop (fetch_of_opcodeByte (i := .nop) rfl rfl h) rfl exec_nop⟩

/-- Settles O48, for the model's choice of the stub. -/
theorem slpStubOnlyAdvancesIp : Obligations.SlpStubOnlyAdvancesIp :=
  ⟨exec_slp, fun _ h => step_of_noop (fetch_of_opcodeByte (i := .slp) rfl rfl h) rfl exec_slp⟩

end Sys2Proof

/-! JMP and JMZ (45_control.md R230 to R234), and the jump to its own address (70_reset_and_hazards.md R266). -/

namespace Sys2Proof

open Machine

theorem exec_jmpR (rt : Reg) (s : State) : exec (.jmpR rt) s = .next (s.linkAndJump (s.readReg rt)) := rfl

theorem exec_jmpI (target : Word) (s : State) : exec (.jmpI target) s = .next (s.linkAndJump target) := rfl

/-- JMZ does not link (D14). -/
theorem exec_jmzRR (c rt : Reg) (s : State) :
    exec (.jmzRR c rt) s = .next (s.jumpIfZero false (s.readReg c) (s.readReg rt)) := rfl

theorem exec_jmzRI (c : Reg) (target : Word) (s : State) :
    exec (.jmzRI c target) s = .next (s.jumpIfZero false (s.readReg c) target) := rfl

/-- Settles O45: the target of JMP_r is read on the state in which AC is not yet written. -/
theorem jmpLinksAndJumps : Obligations.JmpLinksAndJumps := fun rt target s =>
  ⟨⟨_, exec_jmpR rt s, readByte_linkAndJump s _, readReg_linkAndJump s _⟩,
    ⟨_, exec_jmpI target s, readByte_linkAndJump s _, readReg_linkAndJump s _⟩⟩

/-- Settles O46. -/
theorem jmzJumpsOnZeroWithoutLink : Obligations.JmzJumpsOnZeroWithoutLink := fun c rt target s =>
  ⟨⟨_, exec_jmzRR c rt s, readByte_jumpIfZero s _ _ _, readReg_jumpIfZero s _ _⟩,
    ⟨_, exec_jmzRI c target s, readByte_jumpIfZero s _ _ _, readReg_jumpIfZero s _ _⟩⟩

/-! ### A jump to its own address -/

/-- A terminated state is its own next state, after any number of steps. -/
theorem run_of_terminated {s : State} (h : Terminated s) (n : Nat) : core.run n s = .next s := by
  induction n with
  | zero => rfl
  | succ n ih => exact (run_succ_of_step core n h).trans ih

/-- `jmz $nl` to itself moves IP past the instruction and back. -/
theorem terminated_of_fetch_jmz {s : State} (h : s.fetch = .jmzRI .nl (s.readReg .ip)) : Terminated s :=
  calc step s = .next ((s.writeReg .ip _).writeReg .ip (s.readReg .ip)) := step_of_fetch h
    _ = .next s := by rw [writeReg_writeReg, writeReg_readReg]

/-- `jmp` to itself writes the address after it to AC and moves IP past the instruction and back. -/
theorem step_of_fetch_jmp {s : State} (h : s.fetch = .jmpI (s.readReg .ip)) :
    step s = .next (s.writeReg .ac (s.readReg .ip + 3)) :=
  calc step s = .next (((s.writeReg .ip (addrAdd (s.readReg .ip) (3 : Nat))).writeReg .ac
          (addrAdd (s.readReg .ip) (3 : Nat))).writeReg .ip (s.readReg .ip)) := step_of_fetch h
    _ = .next (s.writeReg .ac (s.readReg .ip + 3)) := by
      rw [writeReg_comm _ (by decide), writeReg_writeReg, writeReg_readReg, addrAdd_natCast]
      rfl

/-- Settles O49. -/
theorem jumpToItselfTerminates : Obligations.JumpToItselfTerminates := by
  constructor
  · intro s hbytes
    have hterm := terminated_of_fetch_jmz (fetch_of_encode rfl hbytes)
    exact ⟨hterm, run_of_terminated hterm⟩
  · intro s hbytes
    have hfetch : s.fetch = .jmpI (s.readReg .ip) := fetch_of_encode rfl hbytes
    have hterm : Terminated (s.writeReg .ac (s.readReg .ip + 3)) :=
      (step_of_fetch_jmp (s := s.writeReg .ac (s.readReg .ip + 3)) hfetch).trans
        (congrArg _ (writeReg_writeReg s .ac _ _))
    exact ⟨_, step_of_fetch_jmp hfetch, hterm, readReg_writeReg_same s (by decide) _, fun _ => rfl,
      fun r hr => readReg_writeReg_ne s hr _⟩

end Sys2Proof

/-! Memory, data movement and the stack (20_memory.md R40 to R45, 40_data_movement.md, 41_stack.md). Each meaning is
one shared operation, whose whole effect stands in `Laws/Ops`; what is left is to say it in the numbers of the
spec. -/

namespace Sys2Proof

open Machine

/-! ### Addresses and words in numbers -/

/-- Address arithmetic is modulo 65,536 for every displacement, up or down (R41). -/
theorem toNat_addrAdd (a : Word) (k : Int) : ((addrAdd a k).toNat : Int) = (a.toNat + k) % 65536 :=
  unsigned16_u16 _

/-- Settles O17. -/
theorem addressArithmeticWraps : Obligations.AddressArithmeticWraps := by
  constructor
  · intro a k
    have h := toNat_addrAdd a k
    omega
  · intro a k hk
    have h := toNat_addrAdd a (-(k : Int))
    omega

/-- A byte load widens with zeros (R42, D11). -/
theorem memRead1_eq_ofNat (s : State) (a : Word) : s.memRead1 a = BitVec.ofNat 16 (s.readByte a).toNat :=
  zext8_eq _

/-- The word of two bytes, the low one first (R43). -/
theorem memRead2_eq_ofNat (s : State) (a : Word) :
    s.memRead2 a = BitVec.ofNat 16 ((s.readByte (a + 1)).toNat * 256 + (s.readByte a).toNat) := by
  rw [State.memRead2, wordOfBytes_eq, addrAdd_one]

/-- Settles O16. -/
theorem wordsAreLittleEndian : Obligations.WordsAreLittleEndian := by
  intro s a v w
  have hne : a + 1 ≠ a := addrAdd_one a ▸ addrAdd_one_ne a
  refine ⟨?_, ?_, memRead2_memWrite2 s a v, ?_⟩
  · rw [memRead1_eq_ofNat, readByte_memWrite2, if_pos rfl, toNat_lowByte]
  · rw [memRead1_eq_ofNat, readByte_memWrite2, addrAdd_one, if_neg hne, if_pos rfl, toNat_highByte]
  · simp only [memRead2_eq_ofNat, readByte_memWrite1, if_neg hne.symm, if_true, toNat_lowByte]

/-! ### Loads -/

theorem exec_ldbRR (d ra : Reg) (s : State) :
    exec (.ldbRR d ra) s = .next (s.writeReg d (s.memRead1 (s.readReg ra))) := rfl

theorem exec_ldbRI (d : Reg) (addr : Word) (s : State) :
    exec (.ldbRI d addr) s = .next (s.writeReg d (s.memRead1 addr)) := rfl

theorem exec_ldwRR (d ra : Reg) (s : State) :
    exec (.ldwRR d ra) s = .next (s.writeReg d (s.memRead2 (s.readReg ra))) := rfl

theorem exec_ldwRI (d : Reg) (addr : Word) (s : State) :
    exec (.ldwRI d addr) s = .next (s.writeReg d (s.memRead2 addr)) := rfl

/-- Settles O20. -/
theorem loadByteWidensWithZeros : Obligations.LoadByteWidensWithZeros := by
  intro d ra addr s
  simp only [← memRead1_eq_ofNat]
  exact ⟨completes_writesRegOnly (exec_ldbRR d ra s), completes_writesRegOnly (exec_ldbRI d addr s)⟩

/-- Settles O21. -/
theorem loadWordReadsTwoBytes : Obligations.LoadWordReadsTwoBytes := by
  intro d ra addr
  simp only [← memRead2_eq_ofNat]
  exact ⟨encode_of_regARegB rfl, fun s => completes_writesRegOnly (exec_ldwRR d ra s),
    encode_of_regAImmA16 rfl, fun s => completes_writesRegOnly (exec_ldwRI d addr s)⟩

/-! ### Stores -/

/-- A meaning that is one byte store completes and changes that byte only. -/
theorem completes_storesByteOnly {i : Instr} {a v : Word} {s : State} (h : exec i s = .next (s.memWrite1 a v)) :
    ∃ t, exec i s = .next t ∧ StoresByteOnly a (BitVec.ofNat 8 v.toNat) s t :=
  ⟨_, h, lowByte_eq v ▸ memWrite1_storesByteOnly s a v⟩

/-- A meaning that is one word store completes and changes the two bytes only. -/
theorem completes_storesWordOnly {i : Instr} {a v : Word} {s : State} (h : exec i s = .next (s.memWrite2 a v)) :
    ∃ t, exec i s = .next t ∧ StoresWordOnly a v s t :=
  ⟨_, h, memWrite2_storesWordOnly s a v⟩

/-- IMMA16_IMMB16: the opcode byte, then both immediates, each with its low byte first (R83). -/
theorem encode_of_immA16ImmB16 {i : Instr} (h : i.opcode.layout = .immA16ImmB16) :
    encode i = [i.opcode.code, lowByte i.fields.immA, highByte i.fields.immA, lowByte i.fields.immB,
      highByte i.fields.immB] := by
  rw [encode, h]
  rfl

/-- Settles O22: `rfl` runs each form to its byte store. -/
theorem storeByteStoresTheLowByte : Obligations.StoreByteStoresTheLowByte := fun _ _ _ _ _ =>
  ⟨completes_storesByteOnly rfl, completes_storesByteOnly rfl, completes_storesByteOnly rfl,
    completes_storesByteOnly rfl⟩

/-- Settles O23: `rfl` runs each form to its word store. -/
theorem storeWordStoresTwoBytes : Obligations.StoreWordStoresTwoBytes := fun _ _ _ _ =>
  ⟨encode_of_regARegB rfl, fun _ => completes_storesWordOnly rfl,
    encode_of_regAImmA16 rfl, fun _ => completes_storesWordOnly rfl,
    encode_of_regAImmA16 rfl, fun _ => completes_storesWordOnly rfl,
    encode_of_immA16ImmB16 rfl, fun _ => completes_storesWordOnly rfl⟩

/-! ### Pushes -/

section
variable {i : Instr} {v : Word} {s : State}

/-- The register part of a push: SP takes its new value, NL is no SP. -/
theorem readReg_writeReg_sp (s : State) (w : Word) (r : Reg) :
    (s.writeReg .sp w).readReg r = if r = .sp then w else s.readReg r := by
  cases r <;> rfl

theorem completes_push1 (h : exec i s = .next (s.push1 v)) :
    ∃ t, exec i s = .next t ∧
      (∀ r, t.readReg r = if r = .sp then s.readReg .sp - 1 else s.readReg r) ∧
      ∀ a, t.readByte a = if a = s.readReg .sp - 1 then BitVec.ofNat 8 v.toNat else s.readByte a := by
  simp only [← addrAdd_neg_one, ← lowByte_eq]
  exact ⟨_, h, readReg_writeReg_sp s _, readByte_push1 s v⟩

theorem completes_push2 (h : exec i s = .next (s.push2 v)) :
    ∃ t, exec i s = .next t ∧
      (∀ r, t.readReg r = if r = .sp then s.readReg .sp - 2 else s.readReg r) ∧
      ∀ a, t.readByte a =
        if a = s.readReg .sp - 2 then lowByte v
        else if a = s.readReg .sp - 1 then highByte v else s.readByte a := by
  have hnext : addrAdd (addrAdd (s.readReg .sp) (-2)) 1 = s.readReg .sp - 1 :=
    (addrAdd_addrAdd _ _ _).trans (addrAdd_neg_one _)
  simp only [← hnext, ← addrAdd_neg_two]
  exact ⟨_, h, readReg_writeReg_sp s _, readByte_push2 s v⟩

end

/-- Settles O24: `rfl` runs each form to its push. -/
theorem pushByteMovesSpThenStores : Obligations.PushByteMovesSpThenStores := fun _ _ _ =>
  ⟨completes_push1 rfl, completes_push1 rfl⟩

/-- REGA: the opcode byte, then the register and a pad of 0 (R74). -/
theorem encode_of_regA {i : Instr} (h : i.opcode.layout = .regA) :
    encode i = [i.opcode.code, regNum i.fields.a ++ (0 : Nibble)] := by
  rw [encode, h]
  rfl

/-- IMMA16: the opcode byte, then the immediate with its low byte first (R78). -/
theorem encode_of_immA16 {i : Instr} (h : i.opcode.layout = .immA16) :
    encode i = [i.opcode.code, lowByte i.fields.immA, highByte i.fields.immA] := by
  rw [encode, h]
  rfl

/-- Settles O25: `rfl` runs each form to its push. -/
theorem pushWordMovesSpThenStores : Obligations.PushWordMovesSpThenStores := fun _ _ =>
  ⟨encode_of_regA rfl, fun _ => completes_push2 rfl, encode_of_immA16 rfl, fun _ => completes_push2 rfl⟩

/-! ### Pops -/

theorem exec_popbR (d : Reg) (s : State) : exec (.popbR d) s = .next (s.pop1 d) := rfl

theorem exec_popwR (d : Reg) (s : State) : exec (.popwR d) s = .next (s.pop2 d) := rfl

/-- Settles O26. -/
theorem popByteReadsThenMovesSp : Obligations.PopByteReadsThenMovesSp := by
  intro d s
  refine ⟨_, exec_popbR d s, readByte_pop1 s d, fun r => ?_⟩
  rw [readReg_pop1, zext8_eq, addrAdd_one]

/-- Settles O27. -/
theorem popWordReadsThenMovesSp : Obligations.PopWordReadsThenMovesSp := by
  intro d s
  refine ⟨_, exec_popwR d s, readByte_pop2 s d, fun r => ?_⟩
  rw [readReg_pop2, memRead2_eq_ofNat, addrAdd_two]

/-- Settles O15: a pop to NL is left with its move of SP. -/
theorem nullRegisterReadsZeroAndDiscardsWrites : Obligations.NullRegisterReadsZeroAndDiscardsWrites := by
  refine ⟨readReg_nl, writeReg_nl, fun s src v => ⟨exec_setRR .nl src s, exec_setRI .nl v s⟩,
    fun s => ?_, fun s => ?_⟩
  · rw [exec_popwR, State.pop2, writeReg_nl, addrAdd_two]
  · rw [exec_popbR, State.pop1, writeReg_nl, addrAdd_one]

/-! ### A push and then a pop -/

section
variable (s : State) (r : Reg) (v ip' : Word)

/-- A pop of a word after its push, whatever IP is between them: SP comes back and `r` takes the word. -/
theorem readReg_pop2_push2 {x : Reg} (hx : x ≠ .ip) :
    (((s.push2 v).writeReg .ip ip').pop2 r).readReg x =
      if x = .nl then 0 else if x = r then v else s.readReg x := by
  have hsp : ((s.push2 v).writeReg .ip ip').readReg .sp = addrAdd (s.readReg .sp) (-2) := rfl
  have hword : ((s.push2 v).writeReg .ip ip').memRead2 (addrAdd (s.readReg .sp) (-2)) = v :=
    memRead2_memWrite2 _ _ v
  rw [readReg_pop2, hsp, hword, readReg_writeReg_ne _ hx, readReg_push2, addrAdd_addrAdd]
  by_cases hxsp : x = .sp <;> simp +contextual [hxsp]

/-- A pop of a byte after its push: SP comes back and `r` takes the low byte of the value. -/
theorem readReg_pop1_push1 {x : Reg} (hx : x ≠ .ip) :
    (((s.push1 v).writeReg .ip ip').pop1 r).readReg x =
      if x = .nl then 0 else if x = r then zext8 (lowByte v) else s.readReg x := by
  have hsp : ((s.push1 v).writeReg .ip ip').readReg .sp = addrAdd (s.readReg .sp) (-1) := rfl
  have hbyte : ((s.push1 v).writeReg .ip ip').readByte (addrAdd (s.readReg .sp) (-1)) = lowByte v :=
    (readByte_push1 s v _).trans (if_pos rfl)
  rw [readReg_pop1, hsp, hbyte, readReg_writeReg_ne _ hx, readReg_push1, addrAdd_addrAdd]
  by_cases hxsp : x = .sp <;> simp +contextual [hxsp]

end

/-- Settles O28. -/
theorem pushThenPopRestores : Obligations.PushThenPopRestores := by
  intro r s ip' _ hip
  refine ⟨⟨_, _, rfl, exec_popwR r _, fun x hx => ?_⟩, _, _, rfl, exec_popbR r _, ?_, fun x hx hxr => ?_⟩
  · rw [readReg_pop2_push2 s r _ ip' hx]
    split_ifs with hnl hr
    · rw [hnl, readReg_nl]
    · rw [hr]
    · rfl
  · rw [readReg_pop1_push1 s r _ ip' hip, if_pos (rfl : r = r), zext8_eq, toNat_lowByte]
    split_ifs with hnl
    · rw [hnl]
      rfl
    · rfl
  · rw [readReg_pop1_push1 s r _ ip' hx, if_neg hxr]
    split_ifs with hnl
    · rw [hnl, readReg_nl]
    · rfl

end Sys2Proof

/-! ADD, SUB and MUL on both readings, the signed division and the identity of quotient and remainder
(42_arithmetic.md R168 to R172), and the shifts by a register (43_logic_shift.md R187). -/

namespace Sys2Proof

open Machine

section
variable {i : Instr} {d : Reg} {w x y : Word} {s : State}

/-- A word written to a destination other than NL is what the destination then reads, in whatever ways the word is
written. -/
theorem completes_readReg_eq (hd : d ≠ .nl) (h : exec i s = .next (s.writeReg d w)) (hx : x = w) (hy : y = w) :
    ∃ t, exec i s = .next t ∧ t.readReg d = x ∧ t.readReg d = y :=
  ⟨_, h, (readReg_writeReg_same s hd w).trans hx.symm, (readReg_writeReg_same s hd w).trans hy.symm⟩

end

/-- Settles O32: narrowing commutes with +, - and *, and both readings of a word narrow to it. -/
theorem signedAndUnsignedArithmeticAgree : Obligations.SignedAndUnsignedArithmeticAgree := by
  intro d s1 s2 s hd
  refine ⟨completes_readReg_eq hd (exec_addRRR d s1 s2 s) ?_ ?_,
    completes_readReg_eq hd (exec_subRRR d s1 s2 s) ?_ ?_,
    completes_readReg_eq hd (exec_mulRRR d s1 s2 s) ?_ ?_⟩ <;>
    simp only [u16_add, u16_sub, u16_mul, u16_s16, u16_unsigned16]

/-! ### Division -/

/-- Settles O33. -/
theorem signedDivisionWritesTheQuotient : Obligations.SignedDivisionWritesTheQuotient :=
  fun _ _ _ _ => completes_opRRR rfl (aluDivs_trunc_eq _ _)

/-- Settles O35: `srem` is the remainder of the division that rounds toward zero. -/
theorem signedRemainderTakesTheDividendsSign : Obligations.SignedRemainderTakesTheDividendsSign :=
  fun _ _ _ _ => completes_opRRR rfl (aluRems_trunc_eq _ _)

/-- The signed identity holds whichever way the quotient is rounded: the remainder is defined by it (R170). -/
theorem mul_aluDivs_add_aluRems (m : Config.DivsRound) (p : Word) {q : Word} (hq : q ≠ 0) :
    q * aluDivs m p q + aluRems m p q = p := by
  rw [aluDivs, if_neg hq, aluRems, if_neg hq, u16_sub, u16_mul, u16_s16, u16_s16, BitVec.add_comm,
    BitVec.sub_add_cancel]

theorem mul_aluDivu_add_aluRemu (p : Word) {q : Word} (hq : q ≠ 0) :
    q * aluDivu p q + aluRemu p q = p := by
  calc q * aluDivu p q + aluRemu p q
      = u16 (unsigned16 q * (unsigned16 p / unsigned16 q) + unsigned16 p % unsigned16 q) := by
        rw [aluDivu, if_neg hq, aluRemu, if_neg hq, u16_add, u16_mul, u16_unsigned16]
    _ = p := by rw [Int.mul_ediv_add_emod, u16_unsigned16]

/-- Settles O37. -/
theorem quotientAndRemainderRecoverTheDividend : Obligations.QuotientAndRemainderRecoverTheDividend := by
  intro d s1 s2 s hd hq
  refine ⟨⟨_, _, rfl, rfl, ?_⟩, _, _, rfl, rfl, ?_⟩ <;>
    rw [State.opRRR, State.opRRR, readReg_writeReg_same s hd, readReg_writeReg_same s hd]
  · exact (mul_aluDivs_add_aluRems _ _ hq).symm
  · exact (mul_aluDivu_add_aluRemu _ hq).symm

/-! ### Shifts -/

/-- Settles O40: `rfl` runs each form to its frame, and the laws of the saturating shifts give the word. -/
theorem shiftsByARegisterSaturate : Obligations.ShiftsByARegisterSaturate := fun _ _ _ _ _ =>
  ⟨completes_opRRR rfl (aluLsh_saturate_eq _ _), completes_opRIR rfl (aluLsh_saturate_eq _ _),
    completes_opRRR rfl (aluRshs_saturate_eq _ _), completes_opRIR rfl (aluRshs_saturate_eq _ _),
    completes_opRRR rfl (aluRshu_saturate_eq _ _), completes_opRIR rfl (aluRshu_saturate_eq _ _)⟩

/-- A shift that takes amounts below 16 as they are and greater ones modulo 16 takes every amount modulo 16. -/
theorem ite_lt_sixteen_mod (f : Nat → Word) (n : Nat) : (if n < 16 then f n else f (n % 16)) = f (n % 16) := by
  split_ifs with h
  · rw [Nat.mod_eq_of_lt h]
  · rfl

theorem aluLsh_mod16_eq (v n : Word) : aluLsh .mod16 v n = v <<< (n.toNat % 16) :=
  (ite_lt_sixteen_mod (shiftLeft v) n.toNat).trans (shiftLeft_eq v _)

theorem aluRshu_mod16_eq (v n : Word) : aluRshu .mod16 v n = v >>> (n.toNat % 16) :=
  (ite_lt_sixteen_mod (shiftRightUnsigned v) n.toNat).trans (shiftRightUnsigned_eq v _)

theorem aluRshs_mod16_eq (v n : Word) : aluRshs .mod16 v n = v.sshiftRight (n.toNat % 16) :=
  (ite_lt_sixteen_mod (shiftRightSigned v) n.toNat).trans (shiftRightSigned_eq v _)

/-- Settles O41: below 16 no mode is looked at. -/
theorem shiftModesDifferOnlyFromSixteenOn : Obligations.ShiftModesDifferOnlyFromSixteenOn := fun v n =>
  ⟨aluLsh_mod16_eq v n, aluRshu_mod16_eq v n, aluRshs_mod16_eq v n, fun h =>
    ⟨(aluLsh_lt .mod16 v h).trans (aluLsh_lt .saturate v h).symm,
      (aluRshu_lt .mod16 v h).trans (aluRshu_lt .saturate v h).symm,
      (aluRshs_lt .mod16 v h).trans (aluRshs_lt .saturate v h).symm⟩⟩

end Sys2Proof

/-! Reset, load and the driver's writes (70_reset_and_hazards.md R260 to R265, 20_memory.md R51, R55). -/

namespace Sys2Proof

open Machine

/-- A register of a loaded machine is 0 (R260). -/
theorem readReg_load (image : Memory) (r : Reg) : (Driver.load image).readReg r = 0 := by
  cases r <;> rfl

theorem readByte_load (image : Memory) (a : Word) : (Driver.load image).readByte a = image.byteAt a.toNat := rfl

/-- The machine after reset is the load of the image in which nothing is written (log 2). -/
theorem reset_eq_load : State.reset = Driver.load [] := rfl

/-- A run of bytes set in the image with nothing in it reads as those bytes, then 0x00. -/
theorem byteAt_imageOfBytes (bs : List Byte) (k : Nat) : (Driver.imageOfBytes bs).byteAt k = bs.getD k 0x00 := by
  rw [Driver.imageOfBytes, Memory.byteAt_setBytes]
  split_ifs with h
  · rfl
  · rw [List.getD_eq_default _ _ (by omega)]
    rfl

theorem wf_imageOfBytes {bs : List Byte} (h : bs.length ≤ 65536) : Memory.wf (Driver.imageOfBytes bs) :=
  Memory.wf_setBytes bs Memory.wf_nil (by omega)

/-- Settles O10. -/
theorem resetAndLoadAreCanonical : Obligations.ResetAndLoadAreCanonical :=
  ⟨inv_reset, fun _ h => h, fun _ h => wf_imageOfBytes h⟩

/-- Settles O50. -/
theorem loadZeroesRegistersAndSetsMemory : Obligations.LoadZeroesRegistersAndSetsMemory :=
  fun image => ⟨readReg_load image, readByte_load image⟩

/-- Settles O51: reset is the load of the image of no bytes. -/
theorem imageHoldsItsBytesThenZeros : Obligations.ImageHoldsItsBytesThenZeros := by
  refine ⟨fun bs a _ => byteAt_imageOfBytes bs a.toNat, fun r => ?_, fun a => ?_⟩
  · rw [reset_eq_load, readReg_load]
  · exact byteAt_imageOfBytes [] a.toNat

/-- The driver may write two addresses (D23). -/
theorem addr_of_admitted {p : Driver.Poke} (h : Driver.admitted p = true) :
    p.addr = 0xE000 ∨ p.addr = 0xE001 := by
  simpa [Driver.admitted, params] using h

/-- The last write to an address decides its byte, whatever the others are. -/
theorem readByte_pokeAll_last (ps : List Driver.Poke) {qs : List Driver.Poke} {p : Driver.Poke} (s : State)
    (h : ∀ q ∈ qs, q.addr ≠ p.addr) : (Driver.pokeAll (ps ++ p :: qs) s).readByte p.addr = p.value := by
  rw [pokeAll_append, Driver.pokeAll, readByte_pokeAll_of_not_mem qs _ _ h, Driver.poke, readByte_writeByte_same]

/-- Settles O52. -/
theorem driverReachesOnlyTheInputPorts : Obligations.DriverReachesOnlyTheInputPorts := by
  refine ⟨fun ps s hps => ⟨readReg_pokeAll ps s, fun a h0 h1 => ?_⟩, readByte_pokeAll_of_not_mem,
    fun ps qs p s => readByte_pokeAll_last ps s⟩
  refine readByte_pokeAll_of_not_mem ps s a fun p hp => ?_
  rcases addr_of_admitted (hps p hp) with h | h <;> rw [h]
  · exact h0.symm
  · exact h1.symm

end Sys2Proof

/-! The assembler on single instructions and on a forward reference (30_encoding.md R113 to R121). An instruction's
operands, written as numbers, are in the range of their fields and are stored unchanged; so the line is assembled to
the instruction, and its bytes are placed at the cursor. -/

namespace Sys2Proof

open Machine Assembler

/-! ### Immediates written as numbers -/

/-- The field accepts the number of the word `v` and stores `v` (R115, R116). -/
def Holds (f : ImmField) (v : Word) : Prop :=
  inRange f (unsigned16 v) = true ∧ fieldValue f (unsigned16 v) = v

theorem holds_bits16 (v : Word) : Holds .bits16 v := by
  have hlt := unsigned16_lt v
  have hnn := unsigned16_nonneg v
  exact ⟨decide_eq_true ⟨by omega, by omega⟩, u16_unsigned16 v⟩

theorem unsigned16_lt_of_toNat_lt {v : Word} {n : Nat} (h : v.toNat < n) : unsigned16 v < n :=
  Int.ofNat_lt.mpr h

theorem holds_bits8 {v : Word} (h : v.toNat < 256) : Holds .bits8 v := by
  have hlt := unsigned16_lt_of_toNat_lt h
  have hnn := unsigned16_nonneg v
  refine ⟨decide_eq_true ⟨by omega, by omega⟩, ?_⟩
  exact (congrArg u16 (Int.emod_eq_of_lt hnn hlt)).trans (u16_unsigned16 v)

theorem holds_byteIn16 {v : Word} (h : v.toNat < 256) : Holds .byteIn16 v := by
  have hlt := unsigned16_lt_of_toNat_lt h
  have hnn := unsigned16_nonneg v
  exact ⟨decide_eq_true ⟨by omega, by omega⟩, u16_unsigned16 v⟩

theorem holds_bits4 {v : Word} (h : v.toNat < 16) : Holds .bits4 v := by
  have hlt := unsigned16_lt_of_toNat_lt h
  exact ⟨decide_eq_true ⟨unsigned16_nonneg v, by omega⟩, u16_unsigned16 v⟩

/-- An immediate that refers to no label. -/
def numberImm (v : Word) : Imm := ⟨v, none⟩

/-- A number that its field holds is stored as it is, and the operands after it are treated alike. -/
theorem immOperands_number {f : ImmField} {v : Word} {ks : List OperandKind} {os : List Operand} {ws : List Word}
    (hv : Holds f v) (h : immOperands ks os = .ok (ws.map numberImm)) :
    immOperands (.imm f :: ks) (.imm (unsigned16 v) :: os) = .ok ((v :: ws).map numberImm) := by
  obtain ⟨hrange, hvalue⟩ := hv
  rw [immOperands, if_pos hrange, h, hvalue]
  rfl

/-- A register operand is no immediate. -/
theorem immOperands_reg {r : Reg} {ks : List OperandKind} {os : List Operand} {imms : List Imm}
    (h : immOperands ks os = .ok imms) : immOperands (.reg :: ks) (.reg r :: os) = .ok imms := h

/-! ### The instruction of a line -/

/-- The variants of a mnemonic differ in their operands' kinds, so an instruction selects its own (R113). -/
theorem selectOverload_operandsOf (i : Instr) :
    selectOverload (mnemonicOf i.opcode) (operandsOf i) = some i.opcode := by
  cases i <;> rfl

/-- An instruction is assembled to itself once its immediates are, and its fields are the operands'. -/
theorem assembleInstr_of_immOperands {i : Instr} {imms : List Imm}
    (himms : immOperands (operandKinds i.opcode) (operandsOf i) = .ok imms)
    (hfields : operandFields (regOperands (operandsOf i)) imms = i.fields) :
    assembleInstr (mnemonicOf i.opcode) (operandsOf i) = .ok (i, imms) := by
  rw [assembleInstr, selectOverload_operandsOf]
  simp only [himms, hfields, build_fields]

/-- The immediates of a well-formed instruction, in order; the value of STB_ii has to be a byte (D21). -/
theorem assembleInstr_operandsOf {i : Instr} (hw : i.wf = true)
    (hstb : ∀ addr v, i = .stbII addr v → v.toNat < 256) :
    ∃ ws : List Word, assembleInstr (mnemonicOf i.opcode) (operandsOf i) = .ok (i, ws.map numberImm) := by
  suffices h : ∃ ws : List Word,
      immOperands (operandKinds i.opcode) (operandsOf i) = .ok (ws.map numberImm) ∧
      operandFields (regOperands (operandsOf i)) (ws.map numberImm) = i.fields by
    obtain ⟨ws, himms, hfields⟩ := h
    exact ⟨ws, assembleInstr_of_immOperands himms hfields⟩
  cases i with
  | stbII addr v =>
    exact ⟨[addr, v], immOperands_number (holds_bits16 addr)
      (immOperands_number (holds_byteIn16 (hstb addr v rfl)) rfl), rfl⟩
  | stwII addr v =>
    exact ⟨[addr, v], immOperands_number (holds_bits16 addr) (immOperands_number (holds_bits16 v) rfl), rfl⟩
  | stbRI _ v =>
    exact ⟨[v], immOperands_reg (immOperands_number (holds_bits8 (of_decide_eq_true hw)) rfl), rfl⟩
  | pshbI v => exact ⟨[v], immOperands_number (holds_bits8 (of_decide_eq_true hw)) rfl, rfl⟩
  | lshRRI _ _ v | rshsRRI _ _ v | rshuRRI _ _ v =>
    exact ⟨[v], immOperands_reg (immOperands_reg
      (immOperands_number (holds_bits4 (of_decide_eq_true hw)) rfl)), rfl⟩
  | pshwI v | jmpI v | stbIR v _ | stwIR v _ => exact ⟨[v], immOperands_number (holds_bits16 v) rfl, rfl⟩
  | setRI _ v | ldbRI _ v | ldwRI _ v | stwRI _ v | jmzRI _ v
  | subRIR _ v _ | lshRIR _ v _ | rshsRIR _ v _ | rshuRIR _ v _ | ceqRIR _ v _ | cneRIR _ v _
  | cltsRIR _ v _ | cltuRIR _ v _ | cgesRIR _ v _ | cgeuRIR _ v _ =>
    exact ⟨[v], immOperands_reg (immOperands_number (holds_bits16 v) rfl), rfl⟩
  | addRRI _ _ v | subRRI _ _ v | mulRRI _ _ v | andRRI _ _ v | iorRRI _ _ v | xorRRI _ _ v | ceqRRI _ _ v
  | cneRRI _ _ v | cltsRRI _ _ v | cltuRRI _ _ v | cgesRRI _ _ v | cgeuRRI _ _ v =>
    exact ⟨[v], immOperands_reg (immOperands_reg (immOperands_number (holds_bits16 v) rfl)), rfl⟩
  | _ => exact ⟨[], rfl, rfl⟩

/-- Settles O53. -/
theorem assemblerSelectsTheInstruction : Obligations.AssemblerSelectsTheInstruction := by
  intro i hw hstb
  obtain ⟨ws, h⟩ := assembleInstr_operandsOf hw hstb
  refine ⟨_, h, fun m hm => ?_⟩
  obtain ⟨w, -, rfl⟩ := List.mem_map.mp hm
  rfl

/-! ### Lines -/

theorem referencesFrom_numbers (base : Nat) (ws : List Word) :
    ∀ k, referencesFrom base k (ws.map numberImm) = [] := by
  induction ws with
  | nil => exact fun _ => rfl
  | cons w ws ih => exact fun k => ih (k + 2)

/-- An item that fits is written at the cursor (R117). -/
theorem itemLine_of_fits {st : AsmState} {bs : List Byte} (imms : List Imm) (h : st.cursor + bs.length ≤ 65536) :
    itemLine st bs imms = .ok
      { cursor := st.cursor + bs.length
        image := st.image.setBytes st.cursor bs
        labels := bindPending st
        refs := st.refs ++ referencesFrom st.cursor 1 imms
        pending := none } :=
  if_neg (not_lt.mpr h)

theorem assembleLine_instr {m : Mnemonic} {ops : List Operand} {i : Instr} {imms : List Imm}
    (h : assembleInstr m ops = .ok (i, imms)) (st : AsmState) :
    assembleLine st (.instr m ops) = itemLine st (encode i) imms := by
  rw [assembleLine, h]

theorem length_encode_le_five (i : Instr) : (encode i).length ≤ 5 := by
  rw [length_encode]
  exact numBytes_le_five _

/-- The line of an instruction is written at the cursor as its encoding, takes the waiting label, and leaves no
reference. -/
theorem assembleLine_lineOf {i : Instr} (hw : i.wf = true) (hstb : ∀ addr v, i = .stbII addr v → v.toNat < 256)
    {st : AsmState} (hroom : st.cursor + 5 ≤ 65536) :
    assembleLine st (lineOf i) = .ok
      { cursor := st.cursor + (encode i).length
        image := st.image.setBytes st.cursor (encode i)
        labels := bindPending st
        refs := st.refs
        pending := none } := by
  obtain ⟨ws, h⟩ := assembleInstr_operandsOf hw hstb
  have hfits : st.cursor + (encode i).length ≤ 65536 := by
    have := length_encode_le_five i
    omega
  calc assembleLine st (lineOf i)
      = itemLine st (encode i) (ws.map numberImm) := assembleLine_instr h st
    _ = _ := by rw [itemLine_of_fits _ hfits, referencesFrom_numbers, List.append_nil]

theorem assembleLines_cons {st st' : AsmState} {l : AsmLine} (h : assembleLine st l = .ok st') (ls : List AsmLine) :
    assembleLines st (l :: ls) = assembleLines st' ls := by
  rw [assembleLines, h]

/-- When all lines are assembled and no label waits, the image is patched. -/
theorem assemble_of_assembleLines {ls : List AsmLine} {st : AsmState} (h : assembleLines {} ls = .ok st)
    (hp : st.pending = none) : assemble ls = patchAll st.labels st.image st.refs := by
  rw [assemble, h]
  simp only [hp, Option.isSome_none, Bool.false_eq_true, if_false]

/-! ### Programs -/

/-- Settles O54: the image is that of the instruction's bytes alone. -/
theorem oneLineProgramBecomesItsBytes : Obligations.OneLineProgramBecomesItsBytes := by
  intro i hw hstb
  have hlines := assembleLines_cons (assembleLine_lineOf hw hstb (st := {}) (by decide)) []
  refine ⟨Driver.imageOfBytes (encode i), assemble_of_assembleLines hlines rfl, ?_,
    fun a => byteAt_imageOfBytes (encode i) a.toNat⟩
  exact wf_imageOfBytes ((length_encode_le_five i).trans (by decide))

/-- What `jmp @name` at the start of a program leaves: the placeholder 0x0000 in its field, and a reference to the
name at the field's address (R115). -/
def afterJump (name : Name) : AsmState where
  cursor := 3
  image := Memory.setBytes [] 0 [0x42, 0x00, 0x00]
  refs := [⟨1, name⟩]

theorem assembleInstr_jump (name : Name) :
    assembleInstr .jmp [.label name] = .ok (.jmpI 0, [⟨0, some name⟩]) := rfl

theorem assembleLine_jump (name : Name) :
    assembleLine {} (.instr .jmp [.label name]) = .ok (afterJump name) :=
  calc assembleLine {} (.instr .jmp [.label name])
      = itemLine {} (encode (.jmpI 0)) [⟨0, some name⟩] := assembleLine_instr (assembleInstr_jump name) {}
    _ = .ok (afterJump name) := itemLine_of_fits _ (by decide)

/-- The label on the next line waits for the item after it (R118). -/
theorem assembleLine_label (name : Name) :
    assembleLine (afterJump name) (.label (.byName name)) =
      .ok { afterJump name with pending := some (some name) } := rfl

/-- The image of the program before the reference is patched. -/
def unpatchedImage (i : Instr) : Memory := (Memory.setBytes [] 0 [0x42, 0x00, 0x00]).setBytes 3 (encode i)

/-- A name bound to address 3 is patched into the reference at address 1 (R121). -/
theorem patchAll_forward (name : Name) (image : Memory) :
    patchAll [(name, 3)] image [⟨1, name⟩] = .ok (image.setBytes 1 [0x03, 0x00]) := by
  have hlookup : lookup [(name, (3 : Word))] name = some 3 := if_pos rfl
  rw [patchAll, hlookup]
  rfl

theorem wf_unpatchedImage (i : Instr) : (unpatchedImage i).wf := by
  have hlen := length_encode_le_five i
  exact Memory.wf_setBytes _ (Memory.wf_setBytes _ Memory.wf_nil (by decide)) (by omega)

/-- Patched, the image reads as the jump to address 3, then the instruction, then 0x00. -/
theorem byteAt_patchedImage (i : Instr) (k : Nat) :
    ((unpatchedImage i).setBytes 1 [0x03, 0x00]).byteAt k = ([0x42, 0x03, 0x00] ++ encode i).getD k 0x00 := by
  match k with
  | 0 | 1 | 2 => simp [unpatchedImage, Memory.byteAt_setBytes]
  | j + 3 =>
    have hafter : ([0x42, 0x03, 0x00] ++ encode i).getD (j + 3) 0x00 = (encode i).getD j 0x00 := rfl
    rw [hafter, Memory.byteAt_setBytes, if_neg (by simp), unpatchedImage, Memory.byteAt_setBytes]
    split_ifs with h
    · rw [Nat.add_sub_cancel]
    · rw [Memory.byteAt_setBytes, if_neg (by simp), List.getD_eq_default _ _ (by omega)]
      rfl

/-- Settles O55: the jump leaves a reference, the label binds the name to the cursor, 3, and the patch writes it. -/
theorem forwardReferenceIsPatched : Obligations.ForwardReferenceIsPatched := by
  intro name i hw hstb
  have hlast := assembleLine_lineOf hw hstb (st := { afterJump name with pending := some (some name) })
    (show 3 + 5 ≤ 65536 by decide)
  have hlines := (assembleLines_cons (assembleLine_jump name) _).trans
    ((assembleLines_cons (assembleLine_label name) _).trans (assembleLines_cons hlast []))
  refine ⟨(unpatchedImage i).setBytes 1 [0x03, 0x00],
    (assemble_of_assembleLines hlines rfl).trans (patchAll_forward name _),
    Memory.wf_setBytes _ (wf_unpatchedImage i) (by decide), fun a => byteAt_patchedImage i a.toNat⟩

end Sys2Proof
